-- ==== Sys2Proof/Word.lean ====
section
/-! DEFINITION. The word types of the block: bytes of the stream and 32-bit registers. -/

namespace Sys2Proof

/-- A byte of the stream (00_scope R6). -/
abbrev Byte := BitVec 8

/-- A 32-bit register, address, argument or value (00_scope R6, R8). -/
abbrev Word := BitVec 32

end Sys2Proof
end

