-- ==== Sys2Proof/Config.lean ====
section
/-! DEFINITION. What an implementation fixes, and the one free value of the model. -/

namespace Sys2Proof

/-- MAX_VARINT_BYTES (00_scope R5): the most bytes a header varint may have. -/
def Config.maxVarintBytes : Nat := 5

/-- The byte the block reads in its `n`-th read since reset of a window the host has written into after INIT:
"an unconstrained value, a free draw for the model" (20_memory R60 part 2). No body: nothing can be proved of its
value (log 7). -/
opaque Config.freeByte : Nat → Byte

end Sys2Proof
end

