-- ==== Sys2Proof/Syntax.lean ====
section
/-! DEFINITION. The instructions: one constructor per row of spec/opcode_table.json. -/

namespace Sys2Proof

/-- The five instructions of the opcode table (30_encoding R84): three commands of the host (format CMD) and the two
run headers of the stream (format HDR), which NEXT runs. -/
inductive Instr where
  /-- NEXT (41_next R120). It has no operands. -/
  | next
  /-- INIT (40_config_init R110): `base` is arg0, `len` is arg1. -/
  | init (base len : Word)
  /-- CONFIG (40_config_init R100): `w` is the whole of arg0. -/
  | config (w : Word)
  /-- RLE_RUN (42_run_header R144): `count` is `h >> 1`, 31 bits (30_encoding R80). -/
  | rleRun (count : BitVec 31)
  /-- BITPACKED_RUN (42_run_header R145): `count` is `h >> 1`, the number of groups. -/
  | bitpackedRun (count : BitVec 31)
  deriving DecidableEq, Repr

/-- The instruction is a command of the host (format CMD), not a run header of the stream (format HDR). -/
def Instr.isCommand : Instr → Bool
  | .next => true
  | .init _ _ => true
  | .config _ => true
  | .rleRun _ => false
  | .bitpackedRun _ => false

end Sys2Proof
end

