-- ==== Sys2Proof/WellFormed.lean ====
section
/-! DEFINITION. Which instructions the encodings admit. -/

namespace Sys2Proof

/-- The opcode table's constraint: a run header's count is not 0 (30_encoding R80, R84). A command may carry any
argument: an illegal width or window is answered by the command's own meaning (30_encoding R75). -/
def Instr.wellFormed : Instr → Bool
  | .next => true
  | .init _ _ => true
  | .config _ => true
  | .rleRun count => count != 0
  | .bitpackedRun count => count != 0

end Sys2Proof
end

