-- ==== Sys2Proof/Decode.lean ====
section
/-! DEFINITION. The decoders of both levels, total on any bits, and the encoders written from the same tables
(spec/30_encoding.md). -/

namespace Sys2Proof

/-- Why an encoding is no instruction. -/
inductive DecodeError where
  /-- The reserved opcode 0b11 (30_encoding R76). -/
  | reservedOpcode
  /-- The bytes end inside the header's varint (30_encoding R83). -/
  | truncatedVarint
  /-- Five bytes with bit 7 set, or a value above 2^32 - 1 (30_encoding R83). -/
  | malformedVarint
  deriving DecidableEq, Repr

/-! ## Command level: format CMD -/

/-- Format CMD (30_encoding R73): `cmd_word = {arg1, arg0, op}`. -/
def cmdWord (op : BitVec 2) (arg0 arg1 : Word) : BitVec 66 := arg1 ++ arg0 ++ op

/-- The field `op` of a command word (30_encoding R73). -/
def cmdOp (w : BitVec 66) : BitVec 2 := w.extractLsb' 0 2

/-- The field `arg0` of a command word (30_encoding R73). -/
def cmdArg0 (w : BitVec 66) : Word := w.extractLsb' 2 32

/-- The field `arg1` of a command word (30_encoding R73). -/
def cmdArg1 (w : BitVec 66) : Word := w.extractLsb' 34 32

/-- The opcode map of the command level (30_encoding R74): an ignored field may hold any value. -/
def decodeCmd (w : BitVec 66) : Except DecodeError Instr :=
  if cmdOp w = 0 then .ok .next
  else if cmdOp w = 1 then .ok (.init (cmdArg0 w) (cmdArg1 w))
  else if cmdOp w = 2 then .ok (.config (cmdArg0 w))
  else .error .reservedOpcode

/-! ## Stream level: formats VARINT and HDR -/

/-- What reading a varint answers. -/
inductive VarintResult where
  /-- The header word and the varint's length in bytes. -/
  | value (h : Word) (n : Nat)
  /-- The bytes end inside the varint, after `n` of them. -/
  | truncated (n : Nat)
  /-- `n` bytes were read, and they are no legal varint. -/
  | malformed (n : Nat)
  deriving DecidableEq, Repr

/-- The loop of ReadVarint (42_run_header R142) from byte `k` on, with `h` gathered so far and `fuel` bytes left of
the bound of 30_encoding R78. -/
def scanVarint : (fuel k h : Nat) → List Byte → VarintResult
  | 0, k, _, _ => .malformed k
  | _ + 1, k, _, [] => .truncated k
  | fuel + 1, k, h, b :: bs =>
    let h' := h ||| ((b.toNat % 128) <<< (7 * k))
    if b.toNat < 128 then
      if 2 ^ 32 - 1 < h' then .malformed (k + 1) else .value (BitVec.ofNat 32 h') (k + 1)
    else scanVarint fuel (k + 1) h' bs

/-- Format VARINT (30_encoding R78): the varint at the head of `bytes`. -/
def decodeVarint (bytes : List Byte) : VarintResult := scanVarint Config.maxVarintBytes 0 0 bytes

/-- Format HDR (30_encoding R80): bit 0 is the tag, the other 31 bits are the count. -/
def decodeHeader (h : Word) : Instr :=
  if h.extractLsb' 0 1 = 1 then .bitpackedRun (h.extractLsb' 1 31) else .rleRun (h.extractLsb' 1 31)

/-- The run header at the head of a stream, with the bytes after it (30_encoding R77). -/
def decodeStream (bytes : List Byte) : Except DecodeError (Instr × List Byte) :=
  match decodeVarint bytes with
  | .value h n => .ok (decodeHeader h, bytes.drop n)
  | .truncated _ => .error .truncatedVarint
  | .malformed _ => .error .malformedVarint

/-! ## Encoders -/

/-- An instruction as the hardware meets it: a word on the command port, or bytes in the buffer. -/
inductive Encoded where
  | cmd (word : BitVec 66)
  | stream (bytes : List Byte)
  deriving DecidableEq, Repr

/-- The groups of 7 bits of `x`, low first, at most `fuel` bytes. -/
def encodeVarintFrom : (fuel : Nat) → Nat → List Byte
  | 0, _ => []
  | fuel + 1, x =>
    if x < 128 then [BitVec.ofNat 8 x] else BitVec.ofNat 8 (128 + x % 128) :: encodeVarintFrom fuel (x / 128)

/-- The minimal varint of a header word (30_encoding R85). -/
def encodeVarint (h : Word) : List Byte := encodeVarintFrom Config.maxVarintBytes h.toNat

/-- The header word `{count, tag}` (30_encoding R80). -/
def headerWord (tag : BitVec 1) (count : BitVec 31) : Word := count ++ tag

/-- The encoding of each instruction, ignored fields 0 (30_encoding R80, R85). -/
def encode : Instr → Encoded
  | .next => .cmd (cmdWord 0 0 0)
  | .init base len => .cmd (cmdWord 1 base len)
  | .config w => .cmd (cmdWord 2 w 0)
  | .rleRun count => .stream (encodeVarint (headerWord 0 count))
  | .bitpackedRun count => .stream (encodeVarint (headerWord 1 count))

/-- The instruction an encoding holds, with the bytes of the stream after it. -/
def decode : Encoded → Except DecodeError (Instr × List Byte)
  | .cmd w => (decodeCmd w).map fun i => (i, [])
  | .stream bytes => decodeStream bytes

/-- The `n` low bytes of `x`, least significant first (20_memory R54). -/
def encodeBytes : (n : Nat) → Nat → List Byte
  | 0, _ => []
  | n + 1, x => BitVec.ofNat 8 x :: encodeBytes n (x / 256)

/-- Format RLEVAL (30_encoding R81): `bw` bytes of a value, little-endian. -/
def encodeRleValue (bw : Nat) (v : Word) : List Byte := encodeBytes bw v.toNat

/-- The integer whose bits `[k*w + w - 1 : k*w]` are lane `k` (30_encoding R82). -/
def packLanes (w : Nat) : List Word → Nat
  | [] => 0
  | v :: vs => v.toNat + 2 ^ w * packLanes w vs

/-- Format GROUP (30_encoding R82): 8 lanes of `w` bits in `w` bytes. -/
def encodeGroup (w : Nat) (lanes : Vector Word 8) : List Byte := encodeBytes w (packLanes w lanes.toList)

/-! ## The opcode table's rows -/

/-- The word of an instruction, whose low bits the opcode table's mask and match speak of. -/
def tableWord : Instr → Nat
  | .next => (cmdWord 0 0 0).toNat
  | .init base len => (cmdWord 1 base len).toNat
  | .config w => (cmdWord 2 w 0).toNat
  | .rleRun count => (headerWord 0 count).toNat
  | .bitpackedRun count => (headerWord 1 count).toNat

/-- The instruction of a table word: 32 bits are a header word of format HDR, stored as its varint; any other width
is a command word of format CMD. The table's masks of the two formats overlap, so the width is what tells them apart
(log 10). -/
def decodeTableWord (nbits w : Nat) : Option Instr :=
  if nbits = 32 then
    match decodeStream (encodeVarint (BitVec.ofNat 32 w)) with
    | .ok (i, _) => some i
    | .error _ => none
  else
    match decodeCmd (BitVec.ofNat 66 (w % 2 ^ nbits)) with
    | .ok i => some i
    | .error _ => none

end Sys2Proof
end

