-- ==== Sys2Proof/Machine/State.lean ====
section
/-! DEFINITION. The state of the block, its ports and the buffer memory, as plain data (spec/10_state.md,
spec/20_memory.md, spec/30_encoding.md part 1). -/

namespace Sys2Proof.Machine

/-- Why a step stops with a fault: never. Every command is answered (30_encoding R71), every read completes
(20_memory R51) and every 32-bit address exists (20_memory R50); the block's errors are responses, not stops. -/
inductive Fault where
  deriving DecidableEq, Repr

/-- Why a step is refused. -/
inductive Refusal where
  /-- Raised by an arm of `exec` whose instruction has no meaning yet; no arm does so now. Safe: the run stops. -/
  | notModelled (mnemonic : String)
  deriving DecidableEq, Repr

/-- The encodings of `cfg_state` (10_state R20, R23). -/
inductive CfgState where
  | unconfigured
  | configured
  | fatal
  /-- The encoding 3, which nothing writes; every command answers it with InternalFault (60_exceptions R207). -/
  | encoding3
  deriving DecidableEq, Repr

/-- The encodings of `run_state` (10_state R20, R27). -/
inductive RunState where
  | needsHeader
  | inRle
  | inBitpacked
  /-- The encoding 3, which nothing writes; NEXT answers it with InternalFault (41_next R128). -/
  | encoding3
  deriving DecidableEq, Repr

/-- The buffer memory: addresses with the byte they hold, strictly rising, no entry equal to `Memory.unlisted`. -/
abbrev Memory := List Host.Cell

/-- What an address that is not listed reads as. DESIGN CHOICE, log 2: the spec gives memory no reset contents. -/
def Memory.unlisted : Byte := 0

/-- The canonical form from address `lo` on: strictly rising addresses below 2^32, no unlisted value. -/
def Memory.wfFrom : (lo : Nat) → Memory → Bool
  | _, [] => true
  | lo, (a, b) :: m => decide (lo ≤ a) && decide (a < 2 ^ 32) && decide (b ≠ Memory.unlisted) && Memory.wfFrom (a + 1) m

/-- The canonical form of a memory. -/
def Memory.wf (m : Memory) : Bool := Memory.wfFrom 0 m

/-- A command taken and not yet answered (30_encoding R71). -/
structure Pending where
  /-- The command word. -/
  word : BitVec 66
  /-- How many more steps pass before the one that answers it: LATENCY (70_reset_and_hazards R247), log 4. -/
  wait : Nat
  deriving DecidableEq, Repr

/-- What the host may do (20_memory R63). -/
inductive HostMove where
  /-- Present a command once `cmd_ready` is 1, as 30_encoding R71 asks; it will be answered after `latency` waits. -/
  | command (word : BitVec 66) (latency : Nat)
  /-- Present a command at once, whatever `cmd_ready` is; it is not taken while `cmd_ready = 0` (30_encoding R71). -/
  | commandNow (word : BitVec 66) (latency : Nat)
  /-- Drive `stat_sel` (10_state R32). -/
  | statusRead (sel : BitVec 4)
  /-- Write one byte of the buffer memory (20_memory R60). -/
  | writeByte (addr : Word) (byte : Byte)
  /-- Assert `rst` for one step (70_reset_and_hazards R230). -/
  | reset
  deriving DecidableEq, Repr

/-- The machine: the block's registers (10_state R20), its ports (30_encoding R70), and its environment: the buffer
memory and the host's coming moves. -/
structure State where
  /-- `cfg_state` (10_state R23). -/
  cfgState : CfgState
  /-- `bit_width`, W (10_state R24). -/
  bitWidth : BitVec 6
  /-- `byte_width`, BW (10_state R24). -/
  byteWidth : BitVec 3
  /-- `buf_base` (10_state R25). -/
  bufBase : Word
  /-- `buf_len` (10_state R25). -/
  bufLen : Word
  /-- `position`, the offset of the next unread byte (10_state R26). -/
  position : Word
  /-- `run_state` (10_state R27). -/
  runState : RunState
  /-- `rle_remaining` (10_state R28). -/
  rleRemaining : Word
  /-- `rle_value` (10_state R28). -/
  rleValue : Word
  /-- `bp_groups_remaining` (10_state R29). -/
  bpGroupsRemaining : Word
  /-- `bp_group_pos` (10_state R29). -/
  bpGroupPos : BitVec 3
  /-- `bp_group[0..7]` (10_state R29). -/
  bpGroup : Vector Word 8
  /-- `err_code`, the error latch (10_state R30). -/
  errCode : BitVec 3
  /-- The command taken and not yet answered; `cmd_ready` is 0 exactly while there is one (30_encoding R71). -/
  pending : Option Pending
  /-- `rsp_valid` (30_encoding R72). -/
  rspValid : Bool
  /-- `rsp_status` (30_encoding R72). -/
  rspStatus : BitVec 3
  /-- `rsp_value` (30_encoding R72). -/
  rspValue : Word
  /-- `stat_sel`, driven by the host (10_state R32). -/
  statSel : BitVec 4
  /-- The addresses the last command drove on `mem_addr`, oldest first (20_memory R51, R53), log 15. -/
  memAddrs : List Word
  /-- The buffer memory (20_memory R50). -/
  mem : Memory
  /-- The model's own: the host has written into the window since the last INIT, CONFIG or reset (20_memory R60). -/
  windowWritten : Bool
  /-- The model's own: how many free bytes have been drawn, log 7. -/
  draws : Nat
  /-- The model's own: what the host does next, first move first, log 3. -/
  host : List HostMove
  deriving DecidableEq, Repr

/-- The machine right after reset (10_state R20, 70_reset_and_hazards R230): every register 0, no command pending,
no response; memory with nothing listed, and a host that does nothing. -/
def State.reset : State where
  cfgState := .unconfigured
  bitWidth := 0
  byteWidth := 0
  bufBase := 0
  bufLen := 0
  position := 0
  runState := .needsHeader
  rleRemaining := 0
  rleValue := 0
  bpGroupsRemaining := 0
  bpGroupPos := 0
  bpGroup := #v[0, 0, 0, 0, 0, 0, 0, 0]
  errCode := 0
  pending := none
  rspValid := false
  rspStatus := 0
  rspValue := 0
  statSel := 0
  memAddrs := []
  mem := []
  windowWritten := false
  draws := 0
  host := []

end Sys2Proof.Machine
end

