-- ==== Sys2Proof/Machine/Flags.lean ====
section
/-! DEFINITION. Status codes, the error latch's codes, and the packed words of the status port
(spec/60_exceptions.md part 1, spec/10_state.md part 4). -/

namespace Sys2Proof.Machine

/-- The kinds a response can name (60_exceptions R201). -/
inductive Status where
  | ok
  | truncated
  | emptyRun
  | malformedVarint
  | invalidConfiguration
  | internalFault
  | illegalCommand
  deriving DecidableEq, Repr

/-- The kinds a command can raise: the latched ones (60_exceptions R201, R205). -/
inductive ErrKind where
  | truncated
  | emptyRun
  | malformedVarint
  | invalidConfiguration
  | internalFault
  deriving DecidableEq, Repr

/-- The codes of `rsp_status` (60_exceptions R201). Code 7 is never produced. -/
def Status.code : Status → BitVec 3
  | .ok => 0
  | .truncated => 1
  | .emptyRun => 2
  | .malformedVarint => 3
  | .invalidConfiguration => 4
  | .internalFault => 5
  | .illegalCommand => 6

/-- The status a raised kind answers with (60_exceptions R201). -/
def ErrKind.status : ErrKind → Status
  | .truncated => .truncated
  | .emptyRun => .emptyRun
  | .malformedVarint => .malformedVarint
  | .invalidConfiguration => .invalidConfiguration
  | .internalFault => .internalFault

/-- The code a raised kind latches and answers with (60_exceptions R205). -/
def ErrKind.code (k : ErrKind) : BitVec 3 := k.status.code

/-- The kinds that enter FATAL (60_exceptions R201, R206). -/
def ErrKind.entersFatal : ErrKind → Bool
  | .truncated => false
  | .emptyRun => false
  | .malformedVarint => false
  | .invalidConfiguration => true
  | .internalFault => true

/-- The two bits of `cfg_state` (10_state R20). -/
def CfgState.bits : CfgState → BitVec 2
  | .unconfigured => 0
  | .configured => 1
  | .fatal => 2
  | .encoding3 => 3

/-- The two bits of `run_state` (10_state R20). -/
def RunState.bits : RunState → BitVec 2
  | .needsHeader => 0
  | .inRle => 1
  | .inBitpacked => 2
  | .encoding3 => 3

/-- Lane `k` of the current group (10_state R29). -/
def State.lane (s : State) (k : BitVec 3) : Word := s.bpGroup.get ⟨k.toNat, k.isLt⟩

/-- The STATUS word (10_state R33). -/
def State.statusWord (s : State) : Word :=
  (0 : BitVec 13) ++ s.byteWidth ++ s.bitWidth ++ s.bpGroupPos ++ s.errCode ++ s.runState.bits ++ s.cfgState.bits

/-- The map of the status port (10_state R32). -/
def State.statusAt (s : State) (sel : BitVec 4) : Word :=
  if sel = 0x0 then s.statusWord
  else if sel = 0x1 then s.position
  else if sel = 0x2 then s.bufBase
  else if sel = 0x3 then s.bufLen
  else if sel = 0x4 then s.rleRemaining
  else if sel = 0x5 then s.rleValue
  else if sel = 0x6 then s.bpGroupsRemaining
  else if sel = 0x7 then 0
  else s.lane (sel.extractLsb' 0 3)

/-- `stat_data` (30_encoding R70): the word the driven `stat_sel` selects. -/
def State.statData (s : State) : Word := s.statusAt s.statSel

/-- `cmd_ready` (30_encoding R71): 1 unless a command is taken and not yet answered. -/
def State.cmdReady (s : State) : Bool := s.pending.isNone

end Sys2Proof.Machine
end

