-- ==== Sys2Proof/Machine/Ops.lean ====
section
/-! DEFINITION. The named operations: memory, the read port, responses, raising an error and what clears it, the
common prologue, reset (spec/20_memory.md, spec/60_exceptions.md part 2, spec/70_reset_and_hazards.md part 1). -/

namespace Sys2Proof.Machine

/-! ## Memory -/

/-- The byte at an address. -/
def Memory.read : Memory → Nat → Byte
  | [], _ => Memory.unlisted
  | (k, v) :: m, a => if a = k then v else Memory.read m a

/-- Put a byte before the rest of a memory, unless it is what an unlisted address reads as. -/
def Memory.cons (a : Nat) (b : Byte) (m : Memory) : Memory := if b = Memory.unlisted then m else (a, b) :: m

/-- Write one byte, keeping the canonical form. -/
def Memory.write : Memory → Nat → Byte → Memory
  | [], a, b => Memory.cons a b []
  | (k, v) :: m, a, b =>
    if a < k then Memory.cons a b ((k, v) :: m)
    else if a = k then Memory.cons a b m
    else (k, v) :: Memory.write m a b

/-- Write consecutive bytes from an address on. -/
def Memory.writeBytes : Memory → Nat → List Byte → Memory
  | m, _, [] => m
  | m, a, b :: bs => Memory.writeBytes (Memory.write m a b) (a + 1) bs

/-! ## The read port -/

/-- The address of offset `off` of the current buffer (10_state R25). -/
def State.bufAddr (s : State) (off : Nat) : Word := s.bufBase + BitVec.ofNat 32 off

/-- `BufByte(off)` (00_scope R7) as the `j`-th read from `s` on: the byte memory holds, or a free byte while the host
is in breach of 20_memory R60 part 2 (log 6). -/
def State.busByte (s : State) (off j : Nat) : Byte :=
  if s.windowWritten then Config.freeByte (s.draws + j) else Memory.read s.mem (s.bufAddr off).toNat

/-- The bytes of `n` reads at ascending offsets from `off` on (20_memory R53). -/
def State.readBytes (s : State) (off n : Nat) : List Byte := (List.range n).map fun j => s.busByte (off + j) j

/-- What those `n` reads leave behind: the addresses on `mem_addr`, and the free bytes used up. -/
def State.noteReads (s : State) (off n : Nat) : State :=
  { s with
    memAddrs := s.memAddrs ++ (List.range n).map fun j => s.bufAddr (off + j)
    draws := if s.windowWritten then s.draws + n else s.draws }

/-! ## Responses and errors -/

/-- `respond(status, value)` (30_encoding R72). -/
def State.respond (status : BitVec 3) (value : Word) (s : State) : State :=
  { s with rspValid := true, rspStatus := status, rspValue := value }

/-- `raise Err(kind)` (00_scope R7, 30_encoding R72, 60_exceptions R205, R206): the ONE operation that takes an
error. The code goes to the latch and to the response, and the kinds 4 and 5 enter FATAL. -/
def State.raise (k : ErrKind) (s : State) : State :=
  State.respond k.code 0
    { s with errCode := k.code, cfgState := if k.entersFatal then .fatal else s.cfgState }

/-- The unlatched refusal of a command (30_encoding R76, 60_exceptions R205). -/
def State.respondIllegal (s : State) : State := s.respond Status.illegalCommand.code 0

/-- What INIT and a legal CONFIG do to the run and the latch (40_config_init R100, R110): the only way back from a
data error (60_exceptions R208). -/
def State.restart (s : State) : State :=
  { s with
    position := 0
    runState := .needsHeader
    rleRemaining := 0
    rleValue := 0
    bpGroupsRemaining := 0
    bpGroupPos := 0
    bpGroup := #v[0, 0, 0, 0, 0, 0, 0, 0]
    errCode := 0 }

/-- The prologue of every command (60_exceptions R206, R207), then the command's own body. -/
def State.prologue (body : State → State) (s : State) : State :=
  match s.cfgState with
  | .encoding3 => s.raise .internalFault
  | .fatal => s.respond s.errCode 0
  | .unconfigured => body s
  | .configured => body s

/-- What a part of NEXT answers: go on with a value from the state it leaves, or the kind it raises. -/
inductive Attempt (α : Type) where
  | ok (a : α) (s : State)
  | raised (k : ErrKind) (s : State)
  deriving Repr

/-- End a command that raised, or go on with it. -/
def Attempt.finish {α : Type} (r : Attempt α) (go : α → State → State) : State :=
  match r with
  | .ok a s => go a s
  | .raised k s => s.raise k

/-! ## Reset -/

/-- `rst` (70_reset_and_hazards R230, R231): every register at its reset value, a pending command dropped, memory and
the host's own `stat_sel` and coming moves as they were. -/
def State.resetBlock (s : State) : State :=
  { State.reset with mem := s.mem, statSel := s.statSel, draws := s.draws, host := s.host }

end Sys2Proof.Machine
end

