-- ==== Sys2Proof/Machine/Operands.lean ====
section
/-! DEFINITION. The operand forms of the stream: the header's varint, the RLE value and the bit-packed group, and how
their bytes become words (spec/42_run_header.md, spec/43_bitpacked_group.md, spec/44_rle_value.md). -/

namespace Sys2Proof.Machine

/-- The little-endian integer of some bytes (20_memory R54). -/
def leNat : List Byte → Nat
  | [] => 0
  | b :: bs => b.toNat + 256 * leNat bs

/-- `byte_width = (W + 7) >> 3` (40_config_init R101). -/
def byteWidthOf (w : Nat) : BitVec 3 := BitVec.ofNat 3 ((w + 7) >>> 3)

/-- The bytes ReadVarint may look at (42_run_header R142): at most 5, and none past the end of the buffer. -/
def State.headerBytes (s : State) : List Byte :=
  s.readBytes s.position.toNat (min Config.maxVarintBytes (s.bufLen.toNat - s.position.toNat))

/-- ReadVarint (42_run_header R142): the header word and its length. No register is written. -/
def State.readVarint (s : State) : Attempt (Word × Nat) :=
  match decodeVarint s.headerBytes with
  | .value h n => .ok (h, n) (s.noteReads s.position.toNat n)
  | .truncated n => .raised .truncated (s.noteReads s.position.toNat n)
  | .malformed n => .raised .malformedVarint (s.noteReads s.position.toNat n)

/-- The value of an RLE run's bytes: little-endian, zero-extended, not masked (44_rle_value R182, R183). -/
def rleValueOf (bytes : List Byte) : Word := BitVec.ofNat 32 (leNat bytes)

/-- ReadRleValue (44_rle_value R180). -/
def State.readRleValue (s : State) : Attempt Word :=
  let off := s.position.toNat
  let bw := s.byteWidth.toNat
  if s.bufLen.toNat < off + bw then .raised .truncated s
  else .ok (rleValueOf (s.readBytes off bw)) { s.noteReads off bw with position := s.position + BitVec.ofNat 32 bw }

/-- Lane `k` of UNPACK_W (43_bitpacked_group R163): `(G >> (k*W)) & (2^W - 1)`. -/
def unpackLane (w : Nat) (bytes : List Byte) (k : Nat) : Word := BitVec.ofNat 32 ((leNat bytes >>> (k * w)) % 2 ^ w)

/-- UNPACK_W (43_bitpacked_group R163). -/
def unpack (w : Nat) (bytes : List Byte) : Vector Word 8 :=
  #v[unpackLane w bytes 0, unpackLane w bytes 1, unpackLane w bytes 2, unpackLane w bytes 3,
    unpackLane w bytes 4, unpackLane w bytes 5, unpackLane w bytes 6, unpackLane w bytes 7]

/-- ReadGroup (43_bitpacked_group R160): W bytes, not BW. -/
def State.readGroup (s : State) : Attempt Unit :=
  let off := s.position.toNat
  let w := s.bitWidth.toNat
  if s.bufLen.toNat < off + w then .raised .truncated s
  else
    .ok () { s.noteReads off w with
      bpGroup := unpack w (s.readBytes off w)
      position := s.position + BitVec.ofNat 32 w }

end Sys2Proof.Machine
end

