-- ==== Sys2Proof/Machine/Control.lean ====
section
/-! DEFINITION. The control commands CONFIG and INIT, and the reserved opcode (spec/40_config_init.md,
spec/30_encoding.md R76). -/

namespace Sys2Proof.Machine

/-- The legal widths: the whole 32-bit argument is compared (40_config_init R100). -/
def legalWidth (w : Word) : Bool := decide (1 ≤ w.toNat) && decide (w.toNat ≤ 32)

/-- The window lies inside the address space, in unbounded arithmetic (40_config_init R111). -/
def legalWindow (base len : Word) : Bool := decide (base.toNat + len.toNat ≤ 2 ^ 32)

/-- CONFIG after the prologue (40_config_init R100). -/
def State.configBody (w : Word) (s : State) : State :=
  if legalWidth w then
    State.respond Status.ok.code 0
      { s.restart with
        bitWidth := w.setWidth 6
        byteWidth := byteWidthOf w.toNat
        bufBase := 0
        bufLen := 0
        cfgState := .configured }
  else s.raise .invalidConfiguration

/-- CONFIG (40_config_init R100). -/
def execConfig (w : Word) (s : State) : Host.Outcome State Fault Refusal := .next (s.prologue (State.configBody w))

/-- INIT after the prologue (40_config_init R110). -/
def State.initBody (base len : Word) (s : State) : State :=
  if s.cfgState = .unconfigured then s.respondIllegal
  else if legalWindow base len then
    State.respond Status.ok.code 0 { s.restart with bufBase := base, bufLen := len }
  else s.respondIllegal

/-- INIT (40_config_init R110). -/
def execInit (base len : Word) (s : State) : Host.Outcome State Fault Refusal :=
  .next (s.prologue (State.initBody base len))

/-- The reserved opcode 0b11 (30_encoding R76), which is no instruction of the table. -/
def execReserved (s : State) : Host.Outcome State Fault Refusal := .next (s.prologue State.respondIllegal)

end Sys2Proof.Machine
end

