-- ==== Sys2Proof/Machine/RunHeader.lean ====
section
/-! DEFINITION. The run-header parser and its two instructions (spec/42_run_header.md). -/

namespace Sys2Proof.Machine

/-- RLE_RUN (42_run_header R144), as NEXT goes through it: the repeated value is read at once. -/
def State.enterRleRun (count : BitVec 31) (s : State) : Attempt Unit :=
  if count = 0 then .raised .emptyRun s
  else
    match s.readRleValue with
    | .raised k s' => .raised k s'
    | .ok v s' => .ok () { s' with rleValue := v, rleRemaining := count.zeroExtend 32, runState := .inRle }

/-- BITPACKED_RUN (42_run_header R145), as NEXT goes through it: no group is read yet. -/
def State.enterBitpackedRun (count : BitVec 31) (s : State) : Attempt Unit :=
  if count = 0 then .raised .emptyRun s
  else .ok () { s with bpGroupsRemaining := count.zeroExtend 32, bpGroupPos := 0, runState := .inBitpacked }

/-- ReadRunHeader (42_run_header R140): the varint's bytes are consumed before the tag is looked at (R143). -/
def State.readRunHeader (s : State) : Attempt Unit :=
  match s.readVarint with
  | .raised k s' => .raised k s'
  | .ok (h, n) s' =>
    let s'' := { s' with position := s'.position + BitVec.ofNat 32 n }
    match decodeHeader h with
    | .rleRun count => s''.enterRleRun count
    | .bitpackedRun count => s''.enterBitpackedRun count
    | .next => .ok () s''
    | .init _ _ => .ok () s''
    | .config _ => .ok () s''

/-- RLE_RUN (42_run_header R144) on its own, from the point where NEXT has consumed its header: the run is entered, or
the command ends with the error (log 9). -/
def execRleRun (count : BitVec 31) (s : State) : Host.Outcome State Fault Refusal :=
  .next ((s.enterRleRun count).finish fun _ s' => s')

/-- BITPACKED_RUN (42_run_header R145) on its own, from the point where NEXT has consumed its header (log 9). -/
def execBitpackedRun (count : BitVec 31) (s : State) : Host.Outcome State Fault Refusal :=
  .next ((s.enterBitpackedRun count).finish fun _ s' => s')

end Sys2Proof.Machine
end

