-- ==== Sys2Proof/Machine/Next.lean ====
section
/-! DEFINITION. NEXT and the run state machine (spec/41_next.md). -/

namespace Sys2Proof.Machine

/-- NEXT in IN_RLE (41_next R120, R122, R123, R128). -/
def State.serveRle (s : State) : State :=
  if s.rleRemaining = 0 then s.raise .internalFault
  else
    State.respond Status.ok.code s.rleValue
      { s with
        rleRemaining := s.rleRemaining - 1
        runState := if s.rleRemaining = 1 then .needsHeader else .inRle }

/-- Serve lane `bp_group_pos` of the current group (41_next R125, R126). -/
def State.serveLane (s : State) : State :=
  State.respond Status.ok.code (s.lane s.bpGroupPos)
    { s with
      bpGroupPos := s.bpGroupPos + 1
      runState := if s.bpGroupPos = 7 ∧ s.bpGroupsRemaining = 0 then .needsHeader else .inBitpacked }

/-- NEXT in IN_BITPACKED (41_next R120, R124, R128). -/
def State.serveBitpacked (s : State) : State :=
  if s.bpGroupPos = 0 then
    if s.bpGroupsRemaining = 0 then s.raise .internalFault
    else s.readGroup.finish fun _ s' => State.serveLane { s' with bpGroupsRemaining := s'.bpGroupsRemaining - 1 }
  else s.serveLane

/-- The case on `run_state` of NEXT, once no header is due (41_next R120). -/
def State.serve (s : State) : State :=
  match s.runState with
  | .inRle => s.serveRle
  | .inBitpacked => s.serveBitpacked
  | .needsHeader => s.raise .internalFault
  | .encoding3 => s.raise .internalFault

/-- NEXT after the prologue (41_next R120). -/
def State.nextBody (s : State) : State :=
  if s.cfgState = .unconfigured then s.respondIllegal
  else if s.errCode ≠ 0 then s.respond s.errCode 0
  else if s.runState = .needsHeader then s.readRunHeader.finish fun _ s' => s'.serve
  else s.serve

/-- NEXT (41_next R120). -/
def execNext (s : State) : Host.Outcome State Fault Refusal := .next (s.prologue State.nextBody)

end Sys2Proof.Machine
end

