-- ==== Sys2Proof/Machine/Dispatch.lean ====
section
/-! DEFINITION. One arm per instruction. -/

namespace Sys2Proof.Machine

def exec (i : Instr) (s : State) : Host.Outcome State Fault Refusal :=
  match i with
  | .next => Sys2Proof.Machine.execNext s
  | .init base len => Sys2Proof.Machine.execInit base len s
  | .config w => Sys2Proof.Machine.execConfig w s
  | .rleRun count => Sys2Proof.Machine.execRleRun count s
  | .bitpackedRun count => Sys2Proof.Machine.execBitpackedRun count s

end Sys2Proof.Machine
end

