-- ==== Sys2Proof/Machine/Port.lean ====
section
/-! DEFINITION. The command port: how a command is taken, waited for and run, and what the host's other moves do
(spec/30_encoding.md part 1, spec/20_memory.md part 5, spec/70_reset_and_hazards.md). -/

namespace Sys2Proof.Machine

/-- A command whose issue ends the interval of 20_memory R60 part 2: INIT or CONFIG. -/
def startsInterval (w : BitVec 66) : Bool := cmdOp w = 1 || cmdOp w = 2

/-- The host issues a command and the block takes it (30_encoding R71). INIT and CONFIG end the interval in which
the host may not write the window at their issue (20_memory R60, log 8). -/
def State.issue (w : BitVec 66) (latency : Nat) (s : State) : State :=
  { s with
    pending := some ⟨w, latency⟩
    windowWritten := if startsInterval w then false else s.windowWritten }

/-- The address lies in the window `[base, base + len)`. -/
def inWindow (base len addr : Word) : Bool :=
  decide (base.toNat ≤ addr.toNat) && decide (addr.toNat < base.toNat + len.toNat)

/-- The host must not write this address now (20_memory R60 part 2): it lies in the window of the buffer in use, or of
an INIT already issued and about to bind it. A CONFIG already issued has ended the interval (log 8). -/
def State.guards (s : State) (addr : Word) : Bool :=
  match s.pending with
  | none => inWindow s.bufBase s.bufLen addr
  | some p =>
    match decodeCmd p.word with
    | .ok (.init base len) =>
      if s.cfgState = .configured ∧ legalWindow base len then inWindow base len addr
      else inWindow s.bufBase s.bufLen addr
    | .ok (.config _) => false
    | _ => inWindow s.bufBase s.bufLen addr

/-- The host writes a byte of the buffer memory; a write into the guarded window makes the bytes the block reads from
now on free draws (20_memory R60 part 2, 70_reset_and_hazards R235, log 6). -/
def State.hostWrite (addr : Word) (b : Byte) (s : State) : State :=
  { s with
    mem := Memory.write s.mem addr.toNat b
    windowWritten := s.windowWritten || s.guards addr }

/-- One move of the host (20_memory R63). A command waits in the host while `cmd_ready = 0`. -/
def State.hostTurn (s : State) : State :=
  match s.host with
  | [] => s
  | .command w latency :: rest => if s.cmdReady then State.issue w latency { s with host := rest } else s
  | .commandNow w latency :: rest =>
    if s.cmdReady then State.issue w latency { s with host := rest } else { s with host := rest }
  | .statusRead sel :: rest => { s with host := rest, statSel := sel }
  | .writeByte addr b :: rest => State.hostWrite addr b { s with host := rest }
  | .reset :: rest => State.resetBlock { s with host := rest }

/-- The state a due command runs in: it is answered in this step, and its reads begin (30_encoding R71). -/
def State.answering (s : State) : State := { s with pending := none, memAddrs := [] }

/-- A step in which no command is answered: the host moves, and `rsp_valid` is 0 (log 5). -/
def State.quiet (s : State) : State := State.hostTurn { s with rspValid := false }

/-- Run a command word: the instruction it holds, or the reserved opcode's answer (30_encoding R74, R76). -/
def runCommand (w : BitVec 66) (s : State) : Host.Outcome State Fault Refusal :=
  match decodeCmd w with
  | .ok i => exec i s
  | .error _ => execReserved s

/-- One step (70_reset_and_hazards R247): a due command is run and answered; otherwise the host moves, and a pending
command is one step nearer to its answer. -/
def State.advance (s : State) : Host.Outcome State Fault Refusal :=
  match s.pending with
  | some ⟨w, 0⟩ => runCommand w s.answering
  | some ⟨w, n + 1⟩ => .next (State.quiet { s with pending := some ⟨w, n⟩ })
  | none => .next s.quiet

/-- The state in which the next step runs the header word `h`: a NEXT is due in a configured block (W = 8) whose
buffer at address 0 holds the header's varint and 8 bytes after it (log 10). -/
def State.withHeader (s : State) (h : Word) : State :=
  State.issue (cmdWord 0 0 0) 0
    { s.restart with
      cfgState := .configured
      bitWidth := 8
      byteWidth := 1
      bufBase := 0
      bufLen := BitVec.ofNat 32 ((encodeVarint h).length + 8)
      mem := Memory.writeBytes s.mem 0 (encodeVarint h)
      windowWritten := false }

end Sys2Proof.Machine
end

