-- ==== Sys2Proof/Machine/Step.lean ====
section
/-! DEFINITION. The step, and the placing of one instruction where the step runs it. -/

namespace Sys2Proof.Machine

/-- One step of the machine (70_reset_and_hazards R247). -/
def step (s : State) : Host.Outcome State Fault Refusal := s.advance

/-- The instruction of the table word `w` is the one the next step runs (log 10): a command word is issued with no
wait left; a 32-bit header word stands in the buffer of a due NEXT. -/
def State.withFetchWord (s : State) (nbits w : Nat) : State :=
  if nbits = 32 then s.withHeader (BitVec.ofNat 32 w) else State.issue (BitVec.ofNat 66 (w % 2 ^ nbits)) 0 s

end Sys2Proof.Machine
end

