-- ==== Sys2Proof/Safety.lean ====
section
/-! DEFINITION. The words claims are made in: the block's invariant, and the situations the rules speak of. -/

namespace Sys2Proof.Machine

/-- The invariant of the block between commands: 10_state R31, with the ranges of 10_state R20, R28 to R30, the value
ranges of 43_bitpacked_group R164 and 44_rle_value R182, code 7 of 60_exceptions R201, and memory in its canonical
form. -/
structure State.Inv (s : State) : Prop where
  /-- 10_state R31, item 1. -/
  positionInBuffer : s.position.toNat ≤ s.bufLen.toNat
  /-- 10_state R31, item 1. -/
  windowInSpace : s.bufBase.toNat + s.bufLen.toNat ≤ 2 ^ 32
  /-- 10_state R31, item 2. -/
  unconfigured : s.cfgState = .unconfigured →
    s.bitWidth = 0 ∧ s.byteWidth = 0 ∧ s.bufLen = 0 ∧ s.position = 0 ∧ s.runState = .needsHeader
  /-- 10_state R31, item 3. -/
  configured : s.cfgState = .configured →
    1 ≤ s.bitWidth.toNat ∧ s.bitWidth.toNat ≤ 32 ∧ s.byteWidth.toNat = (s.bitWidth.toNat + 7) / 8
  /-- 10_state R31, item 4. -/
  inRle : s.runState = .inRle → s.rleRemaining ≠ 0
  /-- 10_state R31, item 5. -/
  inBitpacked : s.runState = .inBitpacked → s.bpGroupsRemaining ≠ 0 ∨ s.bpGroupPos ≠ 0
  /-- 10_state R31, item 6. -/
  needsHeader : s.runState = .needsHeader → s.bpGroupPos = 0
  /-- Not an item of 10_state R31, but what makes item 6 hold after an RLE run: no group is open in one. DEDUCED from
  41_next R126 and 42_run_header R140, log 17. -/
  noOpenGroup : s.runState = .inRle → s.bpGroupPos = 0
  /-- 10_state R31, item 7. -/
  noEncoding3 : s.cfgState ≠ .encoding3 ∧ s.runState ≠ .encoding3
  /-- 10_state R28, R29: the counts come from a 31-bit field. -/
  counts : s.rleRemaining.toNat < 2 ^ 31 ∧ s.bpGroupsRemaining.toNat < 2 ^ 31
  /-- 10_state R30, 60_exceptions R201, R206: what the latch can hold in each configuration state. -/
  latch : (s.cfgState = .unconfigured → s.errCode = 0) ∧ (s.cfgState = .configured → s.errCode.toNat ≤ 3) ∧
    (s.cfgState = .fatal → s.errCode = 4 ∨ s.errCode = 5)
  /-- 44_rle_value R182, 43_bitpacked_group R164: an RLE value has BW bytes, a lane has W bits. -/
  values : s.cfgState = .configured →
    s.rleValue.toNat < 2 ^ (8 * s.byteWidth.toNat) ∧ ∀ k, (s.lane k).toNat < 2 ^ s.bitWidth.toNat
  /-- 60_exceptions R201: status code 7 is never produced. -/
  response : s.rspStatus ≠ 7
  /-- The memory keeps its canonical form. -/
  memory : Memory.wf s.mem = true

/-- CONFIGURED with no error latched: the states in which NEXT decodes (41_next R127). -/
def State.Ready (s : State) : Prop := s.cfgState = .configured ∧ s.errCode = 0

/-- The command word `w` is taken and answered in the next step (30_encoding R71). -/
def State.Due (s : State) (w : BitVec 66) : Prop := s.pending = some ⟨w, 0⟩

/-- No command is answered in the next step: none is pending, or it waits longer. -/
def State.NotDue (s : State) : Prop := ∀ p, s.pending = some p → p.wait ≠ 0

/-- The host asserts `rst` in the next step, and no command is answered in it (70_reset_and_hazards R230). -/
def State.ResetNext (s : State) : Prop := s.NotDue ∧ ∃ rest, s.host = .reset :: rest

/-- Every register has the reset value of 10_state R20. -/
def State.RegistersAtReset (s : State) : Prop :=
  s.cfgState = .unconfigured ∧ s.bitWidth = 0 ∧ s.byteWidth = 0 ∧ s.bufBase = 0 ∧ s.bufLen = 0 ∧ s.position = 0 ∧
    s.runState = .needsHeader ∧ s.rleRemaining = 0 ∧ s.rleValue = 0 ∧ s.bpGroupsRemaining = 0 ∧ s.bpGroupPos = 0 ∧
    (∀ k, s.lane k = 0) ∧ s.errCode = 0

/-- Two states agree on every register of 10_state R20. -/
def State.SameRegisters (s t : State) : Prop :=
  t.cfgState = s.cfgState ∧ t.bitWidth = s.bitWidth ∧ t.byteWidth = s.byteWidth ∧ t.bufBase = s.bufBase ∧
    t.bufLen = s.bufLen ∧ t.position = s.position ∧ t.runState = s.runState ∧ t.rleRemaining = s.rleRemaining ∧
    t.rleValue = s.rleValue ∧ t.bpGroupsRemaining = s.bpGroupsRemaining ∧ t.bpGroupPos = s.bpGroupPos ∧
    t.bpGroup = s.bpGroup ∧ t.errCode = s.errCode

/-- The value of a varint's bytes: `sum over k of (b_k[6:0] << (7*k))` (30_encoding R78). -/
def varintSum : List Byte → Nat
  | [] => 0
  | b :: bs => b.toNat % 128 + 128 * varintSum bs

/-- `n` NEXTs in a row. -/
def State.afterNexts : (n : Nat) → State → State
  | 0, s => s
  | n + 1, s =>
    match exec .next s with
    | .next t => t.afterNexts n
    | .fault _ => s
    | .refused _ => s

end Sys2Proof.Machine
end

