-- ==== Sys2Proof/Certificates/Slice0/Obligations.lean ====
section
/-! DEFINITION. The statements for the provers, from the numbered rules of spec/. An equation whose right side is
`.next` of a state written out says the instruction's effect, its completion and its frame at once: what the record
update does not name (memory and the ports among it) is unchanged. -/

open Sys2Proof Sys2Proof.Machine

/-! ## Encodings -/

/-- Words written out bit by bit from 30_encoding R73, R78, R80 and the worked words of 95_test_vectors. -/
def Obligations.DecodesWorkedWords : Prop :=
  decodeCmd 0x00000000000000000 = .ok .next ∧
  decodeCmd 0x00000002C00000401 = .ok (.init 0x100 11) ∧
  decodeCmd 0x0000000000000000E = .ok (.config 3) ∧
  decodeCmd 0x00000000000000003 = .error .reservedOpcode ∧
  decodeStream [0x08, 0x07] = .ok (.rleRun 4, [0x07]) ∧
  decodeStream [0x05, 0x88] = .ok (.bitpackedRun 2, [0x88])

/-- Decoding an encoded well-formed instruction gives it back, for every instruction and every operand value. -/
def Obligations.DecodeOfEncodeIsInstruction : Prop :=
  ∀ i : Instr, i.wellFormed = true → decode (encode i) = .ok (i, [])

/-- 30_encoding R73, R74: the command word is `op | arg0 << 2 | arg1 << 34`, and its opcode map, with the ignored
fields of NEXT and CONFIG free. -/
def Obligations.CommandWordAndOpcodeMap : Prop :=
  ∀ (op : BitVec 2) (arg0 arg1 : Word),
    (cmdWord op arg0 arg1).toNat = op.toNat ||| arg0.toNat <<< 2 ||| arg1.toNat <<< 34 ∧
    (op = 0 → decodeCmd (cmdWord op arg0 arg1) = .ok .next) ∧
    (op = 1 → decodeCmd (cmdWord op arg0 arg1) = .ok (.init arg0 arg1)) ∧
    (op = 2 → decodeCmd (cmdWord op arg0 arg1) = .ok (.config arg0)) ∧
    (op = 3 → decodeCmd (cmdWord op arg0 arg1) = .error .reservedOpcode)

/-- 30_encoding R78, R79: a varint ends at the first byte with bit 7 clear; its value is the sum of its 7-bit groups;
it is legal only within 5 bytes and below 2^32, which for a fifth byte means at most 0x0F; its high groups may be 0. -/
def Obligations.VarintValueAndBounds : Prop :=
  (∀ (bs : List Byte) (last : Byte) (rest : List Byte),
    bs.length ≤ 4 → (∀ b ∈ bs, 128 ≤ b.toNat) → last.toNat < 128 →
      decodeVarint (bs ++ last :: rest) =
          (if varintSum (bs ++ [last]) ≤ 2 ^ 32 - 1 then
            .value (BitVec.ofNat 32 (varintSum (bs ++ [last]))) (bs.length + 1)
          else .malformed (bs.length + 1)) ∧
        (bs.length = 4 → (varintSum (bs ++ [last]) ≤ 2 ^ 32 - 1 ↔ last.toNat ≤ 0x0F))) ∧
  (∀ bs rest : List Byte, bs.length = 5 → (∀ b ∈ bs, 128 ≤ b.toNat) → decodeVarint (bs ++ rest) = .malformed 5) ∧
  (∀ bs : List Byte, bs.length ≤ 4 → (∀ b ∈ bs, 128 ≤ b.toNat) → decodeVarint bs = .truncated bs.length)

/-- 30_encoding R80: bit 0 of a header word is the tag and the other 31 bits are the count; a count of 0 is no
well-formed run; a run's header is the varint of `count << 1 | tag`. -/
def Obligations.HeaderTagAndCount : Prop :=
  (∀ h : Word, decodeHeader h =
    if h.toNat % 2 = 1 then .bitpackedRun (BitVec.ofNat 31 (h.toNat / 2)) else .rleRun (BitVec.ofNat 31 (h.toNat / 2))) ∧
  (∀ c : BitVec 31, encode (.bitpackedRun c) = .stream (encodeVarint (BitVec.ofNat 32 (c.toNat <<< 1 ||| 1))) ∧
    encode (.rleRun c) = .stream (encodeVarint (BitVec.ofNat 32 (c.toNat <<< 1))) ∧
    ((Instr.bitpackedRun c).wellFormed = true ↔ c.toNat ≠ 0) ∧ ((Instr.rleRun c).wellFormed = true ↔ c.toNat ≠ 0))

/-- 30_encoding R77, R85: the minimal varint of a header word reads back whatever follows it, and it is the shortest
form that does. -/
def Obligations.MinimalVarintReadsBack : Prop :=
  ∀ h : Word, (∀ rest : List Byte, decodeStream (encodeVarint h ++ rest) = .ok (decodeHeader h, rest)) ∧
    ∀ (bs : List Byte) (n : Nat), decodeVarint bs = .value h n → (encodeVarint h).length ≤ n

/-! ## Reset and the status port -/

/-- 10_state R20, 70_reset_and_hazards R230: the state after reset. -/
def Obligations.ResetStateRegisters : Prop :=
  State.reset.RegistersAtReset ∧ State.reset.cmdReady = true ∧ State.reset.rspValid = false

/-- 70_reset_and_hazards R230: reset puts every register at its reset value in any state, drops a command taken and
not yet answered, leaves `cmd_ready = 1` and `rsp_valid = 0`, and is the only way out of FATAL. A command due in the same
step is answered first (log 14, the model's choice). -/
def Obligations.ResetFromAnyState : Prop :=
  (∀ s : State, s.ResetNext → ∃ t, step s = .next t ∧ t.RegistersAtReset ∧ t.pending = none ∧ t.cmdReady = true ∧
    t.rspValid = false ∧ t.mem = s.mem) ∧
  (∀ s t : State, s.cfgState = .fatal → step s = .next t → t.cfgState = .fatal ∨ s.ResetNext)

/-- 10_state R33: the fields of the STATUS word. -/
def Obligations.StatusWordFields : Prop :=
  ∀ s : State,
    (s.statusAt 0x0).extractLsb' 0 2 = s.cfgState.bits ∧ (s.statusAt 0x0).extractLsb' 2 2 = s.runState.bits ∧
    (s.statusAt 0x0).extractLsb' 4 3 = s.errCode ∧ (s.statusAt 0x0).extractLsb' 7 3 = s.bpGroupPos ∧
    (s.statusAt 0x0).extractLsb' 10 6 = s.bitWidth ∧ (s.statusAt 0x0).extractLsb' 16 3 = s.byteWidth ∧
    (s.statusAt 0x0).extractLsb' 19 13 = 0

/-- 10_state R32: the words of the status port other than STATUS, and `stat_data` as the word `stat_sel` selects. -/
def Obligations.StatusPortMap : Prop :=
  ∀ s : State,
    s.statData = s.statusAt s.statSel ∧ s.statusAt 0x0 = s.statusWord ∧ s.statusAt 0x1 = s.position ∧
    s.statusAt 0x2 = s.bufBase ∧ s.statusAt 0x3 = s.bufLen ∧ s.statusAt 0x4 = s.rleRemaining ∧
    s.statusAt 0x5 = s.rleValue ∧ s.statusAt 0x6 = s.bpGroupsRemaining ∧ s.statusAt 0x7 = 0 ∧
    ∀ k : Fin 8, s.statusAt (BitVec.ofNat 4 (8 + k.val)) = s.bpGroup.get k

/-- 10_state R34: a status read changes no register, no memory, not the command waited for (its word stays the one
taken) nor anything else the block's later answers depend on, and returns the selected word; and no move of the host but
reset writes a register when no command is answered. -/
def Obligations.StatusReadHasNoSideEffect : Prop :=
  (∀ (s : State) (sel : BitVec 4) (rest : List HostMove), s.NotDue → s.host = .statusRead sel :: rest →
    ∃ t, step s = .next t ∧ s.SameRegisters t ∧ t.mem = s.mem ∧
      t.pending.map Pending.word = s.pending.map Pending.word ∧ t.windowWritten = s.windowWritten ∧
      t.draws = s.draws ∧ t.memAddrs = s.memAddrs ∧ t.host = rest ∧ t.statData = s.statusAt sel) ∧
  (∀ s t : State, s.NotDue → step s = .next t → s.SameRegisters t ∨ s.ResetNext)

/-! ## CONFIG and INIT -/

/-- 40_config_init R100, R102: CONFIG is opcode 2 with `arg1` ignored; a legal CONFIG is a full construction from
UNCONFIGURED and CONFIGURED alike; an illegal width enters FATAL and writes nothing else but the latch; only reset
leaves FATAL. -/
def Obligations.ConfigBuildsOrFaults : Prop :=
  (∀ w arg1 : Word, decodeCmd (cmdWord 2 w arg1) = .ok (.config w)) ∧
  (∀ (s : State) (w : Word), s.cfgState = .unconfigured ∨ s.cfgState = .configured →
    (1 ≤ w.toNat ∧ w.toNat ≤ 32 →
      exec (.config w) s = .next { s with
        bitWidth := BitVec.ofNat 6 w.toNat, byteWidth := BitVec.ofNat 3 ((w.toNat + 7) / 8), bufBase := 0, bufLen := 0,
        position := 0, runState := .needsHeader, rleRemaining := 0, rleValue := 0, bpGroupsRemaining := 0,
        bpGroupPos := 0, bpGroup := #v[0, 0, 0, 0, 0, 0, 0, 0], errCode := 0, cfgState := .configured,
        rspValid := true, rspStatus := 0, rspValue := 0 }) ∧
    (w.toNat = 0 ∨ 32 < w.toNat →
      exec (.config w) s = .next { s with
        cfgState := .fatal, errCode := 4, rspValid := true, rspStatus := 4, rspValue := 0 })) ∧
  (∀ s t : State, s.cfgState = .fatal → step s = .next t → t.cfgState = .fatal ∨ s.ResetNext)

/-- 40_config_init R101: the byte width of every width, and that only CONFIG (or reset) changes either width. -/
def Obligations.ByteWidthIsCeilAndFixed : Prop :=
  (∀ (s : State) (w : Word), s.cfgState = .unconfigured ∨ s.cfgState = .configured → 1 ≤ w.toNat → w.toNat ≤ 32 →
    ∃ t, exec (.config w) s = .next t ∧ t.byteWidth.toNat = (w.toNat + 7) >>> 3 ∧
      (w.toNat ≤ 8 → t.byteWidth = 1) ∧ (9 ≤ w.toNat → w.toNat ≤ 16 → t.byteWidth = 2) ∧
      (17 ≤ w.toNat → w.toNat ≤ 24 → t.byteWidth = 3) ∧ (25 ≤ w.toNat → t.byteWidth = 4)) ∧
  (∀ s t : State, step s = .next t →
    (t.bitWidth = s.bitWidth ∧ t.byteWidth = s.byteWidth) ∨ (∃ w, s.Due w ∧ cmdOp w = 2) ∨ s.ResetNext)

/-- 40_config_init R110 to R113: INIT is opcode 1; it binds the window and restarts decoding, silently discarding any
run, without looking at a byte; it is refused with nothing changed past the top of the address space and when
unconfigured; after an INIT of length 0 the next NEXT raises Truncated. -/
def Obligations.InitBindsOrRefuses : Prop :=
  ∀ (s : State) (base len : Word),
    decodeCmd (cmdWord 1 base len) = .ok (.init base len) ∧
    (s.cfgState = .configured → base.toNat + len.toNat ≤ 2 ^ 32 →
      exec (.init base len) s = .next { s with
          bufBase := base, bufLen := len, position := 0, runState := .needsHeader, rleRemaining := 0, rleValue := 0,
          bpGroupsRemaining := 0, bpGroupPos := 0, bpGroup := #v[0, 0, 0, 0, 0, 0, 0, 0], errCode := 0,
          rspValid := true, rspStatus := 0, rspValue := 0 } ∧
        ∀ i < len.toNat, (State.bufAddr { s with bufBase := base } i).toNat = base.toNat + i) ∧
    (s.cfgState = .configured → 2 ^ 32 < base.toNat + len.toNat →
      exec (.init base len) s = .next { s with rspValid := true, rspStatus := 6, rspValue := 0 }) ∧
    (s.cfgState = .unconfigured →
      exec (.init base len) s = .next { s with rspValid := true, rspStatus := 6, rspValue := 0 }) ∧
    (s.cfgState = .configured → len = 0 → ∃ t, exec (.init base len) s = .next t ∧
      exec .next t = .next { t with errCode := 1, rspValid := true, rspStatus := 1, rspValue := 0 })

/-- 40_config_init R104: before the first legal CONFIG, NEXT and INIT are refused with nothing changed, and CONFIG is
accepted. -/
def Obligations.UnconfiguredAcceptsOnlyConfig : Prop :=
  ∀ s : State, s.cfgState = .unconfigured →
    exec .next s = .next { s with rspValid := true, rspStatus := 6, rspValue := 0 } ∧
    (∀ base len : Word, exec (.init base len) s = .next { s with rspValid := true, rspStatus := 6, rspValue := 0 }) ∧
    (∀ w : Word, 1 ≤ w.toNat → w.toNat ≤ 32 →
      ∃ t, exec (.config w) s = .next t ∧ t.cfgState = .configured ∧ t.rspStatus = 0)

/-- 30_encoding R76: the reserved opcode is refused and changes no register; in FATAL the FATAL rule answers. -/
def Obligations.ReservedOpcodeRefused : Prop :=
  ∀ (s : State) (w : BitVec 66), s.Due w → cmdOp w = 3 →
    (s.cfgState = .unconfigured ∨ s.cfgState = .configured →
      step s = .next { s with pending := none, memAddrs := [], rspValid := true, rspStatus := 6, rspValue := 0 }) ∧
    (s.cfgState = .fatal →
      step s = .next { s with pending := none, memAddrs := [], rspValid := true, rspStatus := s.errCode, rspValue := 0 })

/-! ## Errors -/

/-- 60_exceptions R206: the two fatal kinds enter FATAL with the latch; there every command answers the latched code
and changes no register; the code is 4 or 5; only reset leaves. -/
def Obligations.FatalAnswersLatchedCode : Prop :=
  (∀ (s : State) (k : ErrKind), k = .invalidConfiguration ∨ k = .internalFault →
    (s.raise k).cfgState = .fatal ∧ (s.raise k).errCode = k.code ∧ (k.code = 4 ∨ k.code = 5)) ∧
  (∀ (s : State) (w : BitVec 66), s.Due w → s.cfgState = .fatal →
    step s = .next { s with
      pending := none, memAddrs := [], rspValid := true, rspStatus := s.errCode, rspValue := 0 }) ∧
  (∀ s : State, s.Inv → s.cfgState = .fatal → s.errCode = 4 ∨ s.errCode = 5) ∧
  (∀ s t : State, s.cfgState = .fatal → step s = .next t → t.cfgState = .fatal ∨ s.ResetNext)

/-- 60_exceptions R207: the prologue of every command, the reserved opcode among them: `cfg_state = 3` answers
InternalFault and enters FATAL, and FATAL answers the latch, with no byte read (`memAddrs := []`). -/
def Obligations.CorruptConfigStateFaults : Prop :=
  ∀ (s : State) (w : BitVec 66), s.Due w →
    (s.cfgState = .encoding3 → step s = .next { s with
      pending := none, memAddrs := [], cfgState := .fatal, errCode := 5
      rspValid := true, rspStatus := 5, rspValue := 0 }) ∧
    (s.cfgState = .fatal → step s = .next { s with
      pending := none, memAddrs := [], rspValid := true, rspStatus := s.errCode, rspValue := 0 })

/-- 60_exceptions R205: raising latches and answers the code and undoes no write made before it; a latched error is
repeated by every NEXT with nothing changed; INIT and a legal CONFIG clear it; IllegalCommand is never latched. -/
def Obligations.ErrorLatchIsSticky : Prop :=
  (∀ (s : State) (k : ErrKind),
    s.raise k = { s with
        errCode := k.code, cfgState := if k = .invalidConfiguration ∨ k = .internalFault then .fatal else s.cfgState
        rspValid := true, rspStatus := k.code, rspValue := 0 } ∧
      1 ≤ k.code.toNat ∧ k.code.toNat ≤ 5) ∧
  (∀ s : State, s.cfgState = .configured → s.errCode ≠ 0 →
    exec .next s = .next { s with rspValid := true, rspStatus := s.errCode, rspValue := 0 }) ∧
  (∀ (s : State) (base len : Word), s.cfgState = .configured → base.toNat + len.toNat ≤ 2 ^ 32 →
    ∃ t, exec (.init base len) s = .next t ∧ t.errCode = 0) ∧
  (∀ (s : State) (w : Word), s.cfgState = .configured → 1 ≤ w.toNat → w.toNat ≤ 32 →
    ∃ t, exec (.config w) s = .next t ∧ t.errCode = 0) ∧
  (∀ (s t : State) (w : BitVec 66), s.Due w → step s = .next t → t.rspStatus = 6 → t.errCode = s.errCode)

/-- 60_exceptions R202 to R204: in a decoding state, a NEXT answers Truncated, EmptyRun and MalformedVarint in the
cases the rules list, and only in them. -/
def Obligations.NextErrorCauses : Prop :=
  ∀ s t : State, s.Inv → s.Ready → exec .next s = .next t →
    (t.rspStatus = 1 ↔
      (s.runState = .needsHeader ∧
        ((s.bufLen.toNat - s.position.toNat < 5 ∧ ∀ b ∈ s.headerBytes, 128 ≤ b.toNat) ∨
          ∃ h n, decodeVarint s.headerBytes = .value h n ∧ h.toNat / 2 ≠ 0 ∧
            s.bufLen.toNat <
              s.position.toNat + n + (if h.toNat % 2 = 1 then s.bitWidth.toNat else s.byteWidth.toNat))) ∨
      (s.runState = .inBitpacked ∧ s.bpGroupPos = 0 ∧ s.bufLen.toNat < s.position.toNat + s.bitWidth.toNat)) ∧
    (t.rspStatus = 2 ↔
      s.runState = .needsHeader ∧ ∃ h n, decodeVarint s.headerBytes = .value h n ∧ h.toNat / 2 = 0) ∧
    (t.rspStatus = 3 ↔
      s.runState = .needsHeader ∧
        ((5 ≤ s.bufLen.toNat - s.position.toNat ∧ ∀ b ∈ s.headerBytes, 128 ≤ b.toNat) ∨
          ∃ bs last rest, s.headerBytes = bs ++ last :: rest ∧ (∀ b ∈ bs, 128 ≤ b.toNat) ∧ last.toNat < 128 ∧
            2 ^ 32 - 1 < varintSum (bs ++ [last])))

/-- 60_exceptions R201: outside FATAL and with no error latched, which command can answer which code; InternalFault
and code 7 are never answered from a state of the invariant. -/
def Obligations.StatusCodeSources : Prop :=
  ∀ (s t : State) (w : BitVec 66), s.Inv → s.cfgState ≠ .fatal → s.errCode = 0 → s.Due w → step s = .next t →
    (t.rspStatus = 1 ∨ t.rspStatus = 2 ∨ t.rspStatus = 3 → cmdOp w = 0) ∧
    (t.rspStatus = 4 ↔ cmdOp w = 2 ∧ ¬ (1 ≤ (cmdArg0 w).toNat ∧ (cmdArg0 w).toNat ≤ 32)) ∧
    t.rspStatus ≠ 5 ∧
    (t.rspStatus = 6 ↔ cmdOp w = 3 ∨ (s.cfgState = .unconfigured ∧ (cmdOp w = 0 ∨ cmdOp w = 1)) ∨
      (cmdOp w = 1 ∧ 2 ^ 32 < (cmdArg0 w).toNat + (cmdArg1 w).toNat)) ∧
    t.rspStatus ≠ 7

/-- 30_encoding R70, R72, 41_next R129, 60_exceptions R200: every command answered shows a response; its value is 0
with an error and for every command but NEXT. -/
def Obligations.ErrorResponseHasNoValue : Prop :=
  ∀ (s : State) (w : BitVec 66), s.Due w →
    ∃ t, step s = .next t ∧ t.rspValid = true ∧ t.cmdReady = true ∧ (t.rspStatus ≠ 0 → t.rspValue = 0) ∧
      (cmdOp w ≠ 0 → t.rspValue = 0)

/-! ## NEXT -/

/-- 41_next R122, R123: NEXT in an RLE run serves the repeated value, reads nothing, and ends the run with its last. -/
def Obligations.NextServesRleValue : Prop :=
  ∀ s : State, s.Ready → s.runState = .inRle → s.rleRemaining ≠ 0 →
    exec .next s = .next { s with
      rleRemaining := s.rleRemaining - 1
      runState := if s.rleRemaining = 1 then .needsHeader else .inRle
      rspValid := true, rspStatus := 0, rspValue := s.rleValue }

/-- 41_next R124 to R126, 43_bitpacked_group R162: NEXT in a bit-packed run serves the lane `bp_group_pos`; at lane 0
it first unpacks the next W bytes and counts the group, or answers Truncated with only the latch written; after lane 7
of the last group the run ends. -/
def Obligations.NextInBitpackedRun : Prop :=
  ∀ s : State, s.Ready → s.runState = .inBitpacked →
    (s.bpGroupPos ≠ 0 →
      exec .next s = .next { s with
        bpGroupPos := s.bpGroupPos + 1
        runState := if s.bpGroupPos = 7 ∧ s.bpGroupsRemaining = 0 then .needsHeader else .inBitpacked
        rspValid := true, rspStatus := 0, rspValue := s.lane s.bpGroupPos }) ∧
    (s.bpGroupPos = 0 → s.bpGroupsRemaining ≠ 0 → s.position.toNat + s.bitWidth.toNat ≤ s.bufLen.toNat →
      exec .next s = .next { s.noteReads s.position.toNat s.bitWidth.toNat with
        bpGroup := unpack s.bitWidth.toNat (s.readBytes s.position.toNat s.bitWidth.toNat)
        position := BitVec.ofNat 32 (s.position.toNat + s.bitWidth.toNat)
        bpGroupsRemaining := s.bpGroupsRemaining - 1, bpGroupPos := 1
        rspValid := true, rspStatus := 0
        rspValue := unpackLane s.bitWidth.toNat (s.readBytes s.position.toNat s.bitWidth.toNat) 0 }) ∧
    (s.bpGroupPos = 0 → s.bpGroupsRemaining ≠ 0 → s.bufLen.toNat < s.position.toNat + s.bitWidth.toNat →
      exec .next s = .next { s with errCode := 1, rspValid := true, rspStatus := 1, rspValue := 0 })

/-- 41_next R128: the broken run states, and `cfg_state = 3`, answer InternalFault and enter FATAL. -/
def Obligations.NextFaultsOnBrokenState : Prop :=
  ∀ s : State,
    (s.Ready ∧ (s.runState = .encoding3 ∨ (s.runState = .inRle ∧ s.rleRemaining = 0) ∨
        (s.runState = .inBitpacked ∧ s.bpGroupPos = 0 ∧ s.bpGroupsRemaining = 0))) ∨ s.cfgState = .encoding3 →
      exec .next s = .next { s with
        cfgState := .fatal, errCode := 5, rspValid := true, rspStatus := 5, rspValue := 0 }

/-- 41_next R121, R127 row 1, 42_run_header R143, R144: NEXT at the header of an RLE run reads header and value and
serves the value in the same command, unmasked (44_rle_value R183). -/
def Obligations.NextStartsRleRun : Prop :=
  ∀ (s : State) (h : Word) (n : Nat) (c : BitVec 31), s.Ready → s.runState = .needsHeader →
    decodeVarint s.headerBytes = .value h n → decodeHeader h = .rleRun c → c ≠ 0 →
    s.position.toNat + n + s.byteWidth.toNat ≤ s.bufLen.toNat →
    exec .next s = .next { s.noteReads s.position.toNat (n + s.byteWidth.toNat) with
      position := BitVec.ofNat 32 (s.position.toNat + n + s.byteWidth.toNat)
      rleValue := rleValueOf ((List.range s.byteWidth.toNat).map fun j => s.busByte (s.position.toNat + n + j) (n + j))
      rleRemaining := BitVec.ofNat 32 (c.toNat - 1)
      runState := if c = 1 then .needsHeader else .inRle
      rspValid := true, rspStatus := 0
      rspValue := rleValueOf ((List.range s.byteWidth.toNat).map fun j => s.busByte (s.position.toNat + n + j) (n + j)) }

/-- 41_next R121, R127 row 2, 42_run_header R143, R145, R149: NEXT at the header of a bit-packed run reads header and
first group and serves lane 0 in the same command, whatever the count says of later groups. -/
def Obligations.NextStartsBitpackedRun : Prop :=
  ∀ (s : State) (h : Word) (n : Nat) (c : BitVec 31), s.Ready → s.runState = .needsHeader →
    decodeVarint s.headerBytes = .value h n → decodeHeader h = .bitpackedRun c → c ≠ 0 →
    s.position.toNat + n + s.bitWidth.toNat ≤ s.bufLen.toNat →
    exec .next s = .next { s.noteReads s.position.toNat (n + s.bitWidth.toNat) with
      position := BitVec.ofNat 32 (s.position.toNat + n + s.bitWidth.toNat)
      bpGroup := unpack s.bitWidth.toNat
        ((List.range s.bitWidth.toNat).map fun j => s.busByte (s.position.toNat + n + j) (n + j))
      bpGroupsRemaining := BitVec.ofNat 32 (c.toNat - 1), bpGroupPos := 1, runState := .inBitpacked
      rspValid := true, rspStatus := 0
      rspValue := unpackLane s.bitWidth.toNat
        ((List.range s.bitWidth.toNat).map fun j => s.busByte (s.position.toNat + n + j) (n + j)) 0 }

/-- 42_run_header R147, R148: the errors of a header in their order, and the state each leaves. -/
def Obligations.HeaderErrorsAndTheirStates : Prop :=
  ∀ s : State, s.Ready → s.runState = .needsHeader →
    (∀ n, decodeVarint s.headerBytes = .truncated n →
      exec .next s = .next { s.noteReads s.position.toNat n with
        errCode := 1, rspValid := true, rspStatus := 1, rspValue := 0 }) ∧
    (∀ n, decodeVarint s.headerBytes = .malformed n →
      exec .next s = .next { s.noteReads s.position.toNat n with
        errCode := 3, rspValid := true, rspStatus := 3, rspValue := 0 }) ∧
    (∀ h n, decodeVarint s.headerBytes = .value h n →
      if h.toNat / 2 = 0 then
        exec .next s = .next { s.noteReads s.position.toNat n with
          position := BitVec.ofNat 32 (s.position.toNat + n)
          errCode := 2, rspValid := true, rspStatus := 2, rspValue := 0 }
      else if h.toNat % 2 = 0 then
        (s.bufLen.toNat < s.position.toNat + n + s.byteWidth.toNat →
          exec .next s = .next { s.noteReads s.position.toNat n with
            position := BitVec.ofNat 32 (s.position.toNat + n)
            errCode := 1, rspValid := true, rspStatus := 1, rspValue := 0 })
      else
        (s.bufLen.toNat < s.position.toNat + n + s.bitWidth.toNat →
          exec .next s = .next { s.noteReads s.position.toNat n with
            position := BitVec.ofNat 32 (s.position.toNat + n)
            bpGroupsRemaining := BitVec.ofNat 32 (h.toNat / 2), bpGroupPos := 0, runState := .inBitpacked
            errCode := 1, rspValid := true, rspStatus := 1, rspValue := 0 }))

/-- 41_next R131, 42_run_header R141, 40_config_init R103: NEXT with no byte left for a header, and NEXT after CONFIG
before any INIT, answer Truncated and change only the latch. -/
def Obligations.NextAtEndIsTruncated : Prop :=
  (∀ s : State, s.Ready → s.runState = .needsHeader → s.position = s.bufLen →
    exec .next s = .next { s with errCode := 1, rspValid := true, rspStatus := 1, rspValue := 0 }) ∧
  (∀ (s : State) (w : Word), s.cfgState = .unconfigured ∨ s.cfgState = .configured → 1 ≤ w.toNat → w.toNat ≤ 32 →
    ∃ t, exec (.config w) s = .next t ∧ t.bufLen = 0 ∧
      exec .next t = .next { t with errCode := 1, rspValid := true, rspStatus := 1, rspValue := 0 })

/-- 41_next R132: the bytes one successful NEXT consumes. -/
def Obligations.NextConsumesBytes : Prop :=
  ∀ s t : State, s.Inv → s.Ready → exec .next s = .next t → t.rspStatus = 0 →
    (s.runState = .needsHeader →
      ∃ h n, decodeVarint s.headerBytes = .value h n ∧ 1 ≤ n ∧ n ≤ 5 ∧
        t.position.toNat =
          s.position.toNat + n + (if h.toNat % 2 = 1 then s.bitWidth.toNat else s.byteWidth.toNat)) ∧
    (s.runState = .inRle → t.position = s.position) ∧
    (s.runState = .inBitpacked →
      t.position.toNat = s.position.toNat + if s.bpGroupPos = 0 then s.bitWidth.toNat else 0)

/-- 41_next R129: an RLE run with `r` values left yields `r` values, all of them the repeated value, and then ends. -/
def Obligations.RleRunYieldsItsCount : Prop :=
  ∀ s : State, s.Ready → s.runState = .inRle → s.rleRemaining ≠ 0 →
    (∀ k < s.rleRemaining.toNat, ∃ t, exec .next (s.afterNexts k) = .next t ∧ t.rspStatus = 0 ∧
      t.rspValue = s.rleValue ∧ t.position = s.position) ∧
    (s.afterNexts s.rleRemaining.toNat).runState = .needsHeader

/-- 43_bitpacked_group R167: the lanes left of a group are served one per NEXT, in lane order, with no byte read. -/
def Obligations.GroupLanesServedInOrder : Prop :=
  ∀ (s : State) (k : Nat), s.Ready → s.runState = .inBitpacked → s.bpGroupPos ≠ 0 → s.bpGroupPos.toNat + k < 8 →
    ∃ t, exec .next (s.afterNexts k) = .next t ∧ t.rspStatus = 0 ∧
      t.rspValue = s.lane (s.bpGroupPos + BitVec.ofNat 3 k) ∧ t.position = s.position ∧ t.memAddrs = s.memAddrs

/-! ## The run headers as instructions -/

/-- 42_run_header R144, 44_rle_value R184: RLE_RUN is the header with tag 0; it reads the value and enters the run, or
answers EmptyRun or Truncated with nothing else written; a run of one value is left by the NEXT that entered it. The
instruction on its own starts where NEXT has consumed its header (log 9). -/
def Obligations.RleRunReadsValue : Prop :=
  ∀ (s : State) (c : BitVec 31),
    decodeHeader (BitVec.ofNat 32 (2 * c.toNat)) = .rleRun c ∧
    (c ≠ 0 → s.position.toNat + s.byteWidth.toNat ≤ s.bufLen.toNat →
      exec (.rleRun c) s = .next { s.noteReads s.position.toNat s.byteWidth.toNat with
        position := BitVec.ofNat 32 (s.position.toNat + s.byteWidth.toNat)
        rleValue := rleValueOf (s.readBytes s.position.toNat s.byteWidth.toNat)
        rleRemaining := BitVec.ofNat 32 c.toNat, runState := .inRle }) ∧
    (c = 0 → exec (.rleRun c) s = .next { s with errCode := 2, rspValid := true, rspStatus := 2, rspValue := 0 }) ∧
    (c ≠ 0 → s.bufLen.toNat < s.position.toNat + s.byteWidth.toNat →
      exec (.rleRun c) s = .next { s with errCode := 1, rspValid := true, rspStatus := 1, rspValue := 0 }) ∧
    (s.Ready → c = 1 → s.position.toNat + s.byteWidth.toNat ≤ s.bufLen.toNat →
      ∃ u t, exec (.rleRun c) s = .next u ∧ exec .next u = .next t ∧ t.runState = .needsHeader ∧
        t.rspStatus = 0 ∧ t.rspValue = u.rleValue ∧ t.rleRemaining = 0)

/-- 42_run_header R145: BITPACKED_RUN is the header with tag 1; it enters the run whatever the buffer holds, or answers
EmptyRun; the NEXT that goes on from it reads the first group. The instruction on its own starts where NEXT has
consumed its header (log 9). -/
def Obligations.BitpackedRunEnters : Prop :=
  ∀ (s : State) (c : BitVec 31),
    decodeHeader (BitVec.ofNat 32 (2 * c.toNat + 1)) = .bitpackedRun c ∧
    (c ≠ 0 → exec (.bitpackedRun c) s = .next { s with
      bpGroupsRemaining := BitVec.ofNat 32 c.toNat, bpGroupPos := 0, runState := .inBitpacked }) ∧
    (c = 0 → exec (.bitpackedRun c) s = .next { s with errCode := 2, rspValid := true, rspStatus := 2, rspValue := 0 }) ∧
    (s.Ready → c ≠ 0 → s.position.toNat + s.bitWidth.toNat ≤ s.bufLen.toNat →
      ∃ u t, exec (.bitpackedRun c) s = .next u ∧ exec .next u = .next t ∧ t.rspStatus = 0 ∧ t.bpGroupPos = 1 ∧
        t.bpGroup = unpack s.bitWidth.toNat (s.readBytes s.position.toNat s.bitWidth.toNat) ∧
        t.position.toNat = s.position.toNat + s.bitWidth.toNat)

/-! ## Values -/

/-- 44_rle_value R182: the value of 1, 2, 3 and 4 bytes, zero-extended. -/
def Obligations.RleValueOfBytes : Prop :=
  ∀ v0 v1 v2 v3 : Byte,
    rleValueOf [v0] = v0.zeroExtend 32 ∧
    rleValueOf [v0, v1] = v0.zeroExtend 32 ||| v1.zeroExtend 32 <<< 8 ∧
    rleValueOf [v0, v1, v2] = v0.zeroExtend 32 ||| v1.zeroExtend 32 <<< 8 ||| v2.zeroExtend 32 <<< 16 ∧
    rleValueOf [v0, v1, v2, v3] =
      v0.zeroExtend 32 ||| v1.zeroExtend 32 <<< 8 ||| v2.zeroExtend 32 <<< 16 ||| v3.zeroExtend 32 <<< 24

/-- 43_bitpacked_group R163: bit `b` of lane `k` is bit `(k*W + b) mod 8` of byte `(k*W + b) div 8`, and the bits
above W are 0. -/
def Obligations.UnpackBitByBit : Prop :=
  ∀ (w : Nat) (g : List Byte) (k : Fin 8) (b : Nat), 1 ≤ w → w ≤ 32 → g.length = w → b < 32 →
    ((unpack w g).get k).getLsbD b =
      (decide (b < w) && (g.getD ((k.val * w + b) / 8) 0).getLsbD ((k.val * w + b) % 8))

/-- 43_bitpacked_group R164: each lane lies in 0..2^W - 1. -/
def Obligations.UnpackedLaneInRange : Prop :=
  ∀ (w : Nat) (g : List Byte) (k : Fin 8), w ≤ 32 → ((unpack w g).get k).toNat ≤ 2 ^ w - 1

/-- 43_bitpacked_group R166: the lanes at the byte-aligned widths and at W = 1. -/
def Obligations.UnpackAlignedWidths : Prop :=
  ∀ (g : List Byte) (k : Fin 8),
    (g.length = 8 → (unpack 8 g).get k = rleValueOf [g.getD k.val 0]) ∧
    (g.length = 16 → (unpack 16 g).get k = rleValueOf [g.getD (2 * k.val) 0, g.getD (2 * k.val + 1) 0]) ∧
    (g.length = 24 → (unpack 24 g).get k =
      rleValueOf [g.getD (3 * k.val) 0, g.getD (3 * k.val + 1) 0, g.getD (3 * k.val + 2) 0]) ∧
    (g.length = 32 → (unpack 32 g).get k =
      rleValueOf [g.getD (4 * k.val) 0, g.getD (4 * k.val + 1) 0, g.getD (4 * k.val + 2) 0, g.getD (4 * k.val + 3) 0]) ∧
    (g.length = 1 → ((unpack 1 g).get k).toNat = if (g.getD 0 0).getLsbD k.val then 1 else 0)

/-- 30_encoding R82, 43_bitpacked_group R163: unpacking 8 packed lanes gives them back, at every width and for every
lane value of that width. -/
def Obligations.UnpackOfPackIsLanes : Prop :=
  ∀ (w : Nat) (lanes : Vector Word 8), 1 ≤ w → w ≤ 32 → (∀ k : Fin 8, (lanes.get k).toNat < 2 ^ w) →
    (encodeGroup w lanes).length = w ∧ unpack w (encodeGroup w lanes) = lanes

/-! ## Memory and the host -/

/-- 20_memory R52, R53: a command reads ascending addresses, each once, from `position` on, inside the window, without
wrap; only NEXT reads; a NEXT that answers OK reads exactly the bytes it consumes, at most `5 + W`, and one that fails
reads nothing or the header's bytes up to the one that ended or broke the varint. -/
def Obligations.ReadsAscendInsideWindow : Prop :=
  ∀ (s : State) (w : BitVec 66), s.Inv → s.Due w →
    ∃ t n, step s = .next t ∧
      t.memAddrs = (List.range n).map (fun j => BitVec.ofNat 32 (s.bufBase.toNat + s.position.toNat + j)) ∧
      s.position.toNat + n ≤ s.bufLen.toNat ∧ s.bufBase.toNat + s.position.toNat + n ≤ 2 ^ 32 ∧
      (cmdOp w ≠ 0 → n = 0) ∧ n ≤ 5 + s.bitWidth.toNat ∧
      (cmdOp w = 0 → t.rspStatus = 0 → t.position.toNat = s.position.toNat + n) ∧
      (t.rspStatus ≠ 0 → n ≠ 0 → decodeVarint s.headerBytes = .truncated n ∨
        decodeVarint s.headerBytes = .malformed n ∨ ∃ h, decodeVarint s.headerBytes = .value h n)

/-- 20_memory R52: two memories that agree inside the window give the same NEXT: no byte outside it is learnt. -/
def Obligations.NextDependsOnWindowOnly : Prop :=
  ∀ (s : State) (m : Memory), s.Inv →
    (∀ a : Word, inWindow s.bufBase s.bufLen a = true → Memory.read m a.toNat = Memory.read s.mem a.toNat) →
    ∃ t, exec .next s = .next t ∧ exec .next { s with mem := m } = .next { t with mem := m }

/-- 20_memory R50, R60 part 1, 10_state R22: a host write lands: its address reads the byte written and every other
address reads as before; every step that is no host write (a command answered, or any other move of the host or none)
leaves memory as it was. A step that answers a command makes no move of the host (log 4, the model's choice). -/
def Obligations.OnlyHostWritesMemory : Prop :=
  (∀ (s : State) (a : Word) (b : Byte) (rest : List HostMove), Memory.wf s.mem = true → s.NotDue →
    s.host = .writeByte a b :: rest →
    ∃ t, step s = .next t ∧ ∀ x : Word, Memory.read t.mem x.toNat = if x = a then b else Memory.read s.mem x.toNat) ∧
  (∀ s t : State, step s = .next t → ¬ s.NotDue ∨ (∀ a b rest, s.host ≠ .writeByte a b :: rest) → t.mem = s.mem)

/-- 20_memory R60 with 70_reset_and_hazards R235, read forward in time as logs 6 and 8 say: a host write into the
window puts the block's later reads at the mercy of free draws (log 7), until the host issues INIT or CONFIG or resets:
no other step ends the breach, and no step but such a write starts it. The window is the one in use, and while a command
waits it is the one an accepted INIT is about to bind, or none under CONFIG. -/
def Obligations.HostWriteBreaksWindow : Prop :=
  (∀ (s : State) (a : Word) (b : Byte) (rest : List HostMove), s.pending = none → s.host = .writeByte a b :: rest →
    ∃ t, step s = .next t ∧ s.SameRegisters t ∧
      (t.windowWritten = true ↔ s.windowWritten = true ∨
        (s.bufBase.toNat ≤ a.toNat ∧ a.toNat < s.bufBase.toNat + s.bufLen.toNat))) ∧
  (∀ (s : State) (off j : Nat),
    (s.windowWritten = true → s.busByte off j = Config.freeByte (s.draws + j)) ∧
    (s.windowWritten = false → s.busByte off j = Memory.read s.mem (s.bufAddr off).toNat)) ∧
  (∀ (s : State) (p : Pending) (a : Word) (b : Byte) (rest : List HostMove), s.pending = some p → p.wait ≠ 0 →
    s.host = .writeByte a b :: rest →
    ∃ t, step s = .next t ∧ s.SameRegisters t ∧
      (t.windowWritten = true ↔ s.windowWritten = true ∨
        if cmdOp p.word = 2 then False
        else if cmdOp p.word = 1 ∧ s.cfgState = .configured ∧
            (cmdArg0 p.word).toNat + (cmdArg1 p.word).toNat ≤ 2 ^ 32 then
          (cmdArg0 p.word).toNat ≤ a.toNat ∧ a.toNat < (cmdArg0 p.word).toNat + (cmdArg1 p.word).toNat
        else s.bufBase.toNat ≤ a.toNat ∧ a.toNat < s.bufBase.toNat + s.bufLen.toNat)) ∧
  (∀ (s : State) (w : BitVec 66) (l : Nat) (rest : List HostMove), s.pending = none →
    s.host = .command w l :: rest ∨ s.host = .commandNow w l :: rest →
    ∃ t, step s = .next t ∧ t.pending = some ⟨w, l⟩ ∧
      t.windowWritten = if cmdOp w = 1 ∨ cmdOp w = 2 then false else s.windowWritten) ∧
  (∀ s : State, s.ResetNext → ∃ t, step s = .next t ∧ t.windowWritten = false) ∧
  (∀ s t : State, step s = .next t → s.windowWritten = true →
    t.windowWritten = true ∨ s.ResetNext ∨
      (s.pending = none ∧ ∃ w l rest, (s.host = .command w l :: rest ∨ s.host = .commandNow w l :: rest) ∧
        (cmdOp w = 1 ∨ cmdOp w = 2))) ∧
  (∀ s t : State, step s = .next t → s.windowWritten = false → t.windowWritten = true →
    s.NotDue ∧ ∃ a b rest, s.host = .writeByte a b :: rest)

/-! ## Steps -/

/-- 30_encoding R71, R74: a due command word that decodes runs as its instruction, with the command no longer pending
and no address driven yet. -/
def Obligations.StepRunsDecodedCommand : Prop :=
  ∀ (s : State) (w : BitVec 66) (i : Instr), s.Due w → decodeCmd w = .ok i →
    step s = exec i { s with pending := none, memAddrs := [] }

/-- 42_run_header R140, R143: a NEXT whose header decodes runs that header's instruction on the state with the header
consumed, and ends with its response if it raises; otherwise it serves from the state the instruction leaves. -/
def Obligations.NextRunsDecodedHeader : Prop :=
  ∀ (s : State) (h : Word) (n : Nat), s.Ready → s.runState = .needsHeader → decodeVarint s.headerBytes = .value h n →
    ∃ u, exec (decodeHeader h) { s.noteReads s.position.toNat n with
        position := BitVec.ofNat 32 (s.position.toNat + n) } = .next u ∧
      (u.errCode ≠ 0 → exec .next s = .next u) ∧ (u.errCode = 0 → exec .next s = exec .next u)

/-- 30_encoding R71 in the steps of logs 3 and 4: a ready block takes the command presented; while it is unanswered
no other is taken, an obedient host keeps its next one, and one presented all the same has no effect. That `rsp_valid` is
0 in a waiting step, and that `rsp_status` and `rsp_value` keep their values there, is the model's choice (log 5). -/
def Obligations.CommandHandshake : Prop :=
  (∀ (s : State) (w : BitVec 66) (l : Nat) (rest : List HostMove), s.cmdReady = true →
    s.host = .command w l :: rest ∨ s.host = .commandNow w l :: rest →
    ∃ t, step s = .next t ∧ t.pending = some ⟨w, l⟩ ∧ t.cmdReady = false ∧ t.host = rest ∧ s.SameRegisters t) ∧
  (∀ (s : State) (p : Pending) (w : BitVec 66) (l : Nat) (rest : List HostMove), s.pending = some p → p.wait ≠ 0 →
    (s.host = .command w l :: rest →
      step s = .next { s with pending := some ⟨p.word, p.wait - 1⟩, rspValid := false }) ∧
    (s.host = .commandNow w l :: rest →
      step s = .next { s with pending := some ⟨p.word, p.wait - 1⟩, rspValid := false, host := rest }))

/-- 70_reset_and_hazards R247: a command taken is answered after finitely many steps, its latency and one more, unless
the host resets the block first. -/
def Obligations.TakenCommandIsAnswered : Prop :=
  ∀ (s : State) (p : Pending), s.pending = some p → (∀ m ∈ s.host, m ≠ .reset) →
    ∃ t, core.run (p.wait + 1) s = .next t ∧ State.rspValid t = true ∧ State.pending t = none

/-! ## Invariants -/

/-- The invariant holds at reset. -/
def Obligations.InvAtReset : Prop := State.reset.Inv

/-- 10_state R31: every step keeps the invariant, whatever the host does. -/
def Obligations.StepKeepsInv : Prop := ∀ s t : State, s.Inv → step s = .next t → t.Inv

/-- 10_state R26: only NEXT, INIT, CONFIG and reset move `position`; NEXT never moves it back, and the others put it
at 0; it never passes the end of the buffer. -/
def Obligations.PositionMoves : Prop :=
  ∀ s t : State, s.Inv → step s = .next t →
    t.position.toNat ≤ t.bufLen.toNat ∧
    (t.position ≠ s.position →
      (∃ w, s.Due w ∧ cmdOp w = 0 ∧ s.position.toNat < t.position.toNat) ∨
      (t.position = 0 ∧ ((∃ w, s.Due w ∧ (cmdOp w = 1 ∨ cmdOp w = 2)) ∨ s.ResetNext)))
end

