-- ==== Sys2Proof/Laws/Decode.lean ====
section
/-! SUPPORT. The laws of the encodings: the fields of a command word, the bounds of a varint, the two headers. -/

namespace Sys2Proof

/-! ## Command words -/

@[simp] theorem cmdOp_cmdWord (op : BitVec 2) (a b : Word) : cmdOp (cmdWord op a b) = op := by
  unfold cmdOp cmdWord
  ext i hi
  simp only [BitVec.getElem_extractLsb', BitVec.getLsbD_append]
  simp [hi]

@[simp] theorem cmdArg0_cmdWord (op : BitVec 2) (a b : Word) : cmdArg0 (cmdWord op a b) = a := by
  unfold cmdArg0 cmdWord
  ext i hi
  simp only [BitVec.getElem_extractLsb', BitVec.getLsbD_append]
  have h2 : ¬ (2 + i < 2) := by omega
  simp [h2, hi]

@[simp] theorem cmdArg1_cmdWord (op : BitVec 2) (a b : Word) : cmdArg1 (cmdWord op a b) = b := by
  unfold cmdArg1 cmdWord
  ext i hi
  simp only [BitVec.getElem_extractLsb', BitVec.getLsbD_append]
  have h1 : ¬ (34 + i < 34) := by omega
  have h2 : ¬ (34 + i < 2) := by omega
  have h3 : ¬ (34 + i - 2 < 32) := by omega
  have h4 : 34 + i - 2 - 32 = i := by omega
  simp [h2, h3, h4, hi]

/-- The opcode is one of four. -/
theorem cmdOp_cases (w : BitVec 66) : cmdOp w = 0 ∨ cmdOp w = 1 ∨ cmdOp w = 2 ∨ cmdOp w = 3 := by
  generalize cmdOp w = op
  revert op
  decide

theorem decodeCmd_next {w : BitVec 66} (h : cmdOp w = 0) : decodeCmd w = .ok .next := by simp [decodeCmd, h]

theorem decodeCmd_init {w : BitVec 66} (h : cmdOp w = 1) : decodeCmd w = .ok (.init (cmdArg0 w) (cmdArg1 w)) := by
  simp [decodeCmd, h]

theorem decodeCmd_config {w : BitVec 66} (h : cmdOp w = 2) : decodeCmd w = .ok (.config (cmdArg0 w)) := by
  simp [decodeCmd, h]

theorem decodeCmd_reserved {w : BitVec 66} (h : cmdOp w = 3) : decodeCmd w = .error .reservedOpcode := by
  simp [decodeCmd, h]

/-! ## Varints -/

/-- The loop passes a byte with bit 7 set on. -/
theorem scanVarint_continue {fuel k h : Nat} {b : Byte} {bs : List Byte} (hb : 128 ≤ b.toNat) :
    scanVarint (fuel + 1) k h (b :: bs) = scanVarint fuel (k + 1) (h ||| (b.toNat % 128) <<< (7 * k)) bs := by
  simp [scanVarint, Nat.not_lt.mpr hb]

/-- The loop ends at a byte with bit 7 clear. -/
theorem scanVarint_last {fuel k h : Nat} {b : Byte} {bs : List Byte} (hb : b.toNat < 128) :
    scanVarint (fuel + 1) k h (b :: bs) =
      if 2 ^ 32 - 1 < h ||| (b.toNat % 128) <<< (7 * k) then .malformed (k + 1)
      else .value (BitVec.ofNat 32 (h ||| (b.toNat % 128) <<< (7 * k))) (k + 1) := by
  simp [scanVarint, hb]

/-- How many bytes a scan looks at, whatever it answers. -/
theorem scanVarint_length (fuel k h : Nat) (bs : List Byte) :
    match scanVarint fuel k h bs with
    | .value _ n => k < n ∧ n ≤ k + fuel ∧ n ≤ k + bs.length
    | .truncated n => n = k + bs.length ∧ bs.length < fuel
    | .malformed n => k ≤ n ∧ n ≤ k + fuel ∧ n ≤ k + bs.length := by
  induction fuel generalizing k h bs with
  | zero => simp [scanVarint]
  | succ fuel ih =>
    cases bs with
    | nil => simp [scanVarint]
    | cons b bs =>
      rw [List.length_cons]
      by_cases hb : b.toNat < 128
      · rw [scanVarint_last hb]
        split_ifs <;> simp
      · rw [scanVarint_continue (by omega)]
        have hr := ih (k + 1) (h ||| (b.toNat % 128) <<< (7 * k)) bs
        generalize scanVarint fuel (k + 1) (h ||| (b.toNat % 128) <<< (7 * k)) bs = r at hr ⊢
        cases r <;> omega

theorem decodeVarint_value_bounds {bs : List Byte} {h : Word} {n : Nat} (e : decodeVarint bs = .value h n) :
    1 ≤ n ∧ n ≤ 5 ∧ n ≤ bs.length := by
  have := scanVarint_length 5 0 0 bs
  simp only [decodeVarint, Config.maxVarintBytes] at e
  simp only [e] at this
  omega

theorem decodeVarint_truncated_bounds {bs : List Byte} {n : Nat} (e : decodeVarint bs = .truncated n) :
    n = bs.length ∧ n < 5 := by
  have := scanVarint_length 5 0 0 bs
  simp only [decodeVarint, Config.maxVarintBytes] at e
  simp only [e] at this
  omega

theorem decodeVarint_malformed_bounds {bs : List Byte} {n : Nat} (e : decodeVarint bs = .malformed n) :
    n ≤ 5 ∧ n ≤ bs.length := by
  have := scanVarint_length 5 0 0 bs
  simp only [decodeVarint, Config.maxVarintBytes] at e
  simp only [e] at this
  omega

/-- No byte: the varint is cut short at once (42_run_header R141). -/
@[simp] theorem decodeVarint_nil : decodeVarint [] = .truncated 0 := rfl

/-- Below the bits gathered so far, or-ing a shifted group in is adding it. -/
theorem or_shiftLeft_eq_add {h x i : Nat} (hh : h < 2 ^ i) : h ||| x <<< i = h + x * 2 ^ i := by
  rw [Nat.lor_comm, ← Nat.shiftLeft_add_eq_or_of_lt hh, Nat.shiftLeft_eq, Nat.add_comm]

/-! ## Headers -/

/-- A header word is one of the two runs (30_encoding R80). -/
theorem decodeHeader_cases (h : Word) :
    (h.toNat % 2 = 0 ∧ decodeHeader h = .rleRun (h.extractLsb' 1 31)) ∨
      (h.toNat % 2 = 1 ∧ decodeHeader h = .bitpackedRun (h.extractLsb' 1 31)) := by
  have e : h.extractLsb' 0 1 = 1 ↔ h.toNat % 2 = 1 := by
    rw [← BitVec.toNat_inj]
    simp [BitVec.extractLsb'_toNat]
  unfold decodeHeader
  by_cases hh : h.toNat % 2 = 1
  · exact .inr ⟨hh, if_pos (e.mpr hh)⟩
  · exact .inl ⟨by omega, if_neg (mt e.mp hh)⟩

/-- The count is `h >> 1` (30_encoding R80). -/
theorem headerCount_toNat (h : Word) : (h.extractLsb' 1 31).toNat = h.toNat / 2 := by
  simp only [BitVec.extractLsb'_toNat, Nat.shiftRight_eq_div_pow]
  have := h.isLt
  omega

theorem headerCount_eq_zero (h : Word) : h.extractLsb' 1 31 = 0 ↔ h.toNat / 2 = 0 := by
  rw [← BitVec.toNat_inj, headerCount_toNat]
  rfl

end Sys2Proof
end

