-- ==== Sys2Proof/Laws/State.lean ====
section
/-! SUPPORT. What each named update of the state writes and leaves: one lemma per field per update, so that no later
proof unfolds a record update. -/

namespace Sys2Proof.Machine

/-! ## `respond` writes the response and nothing else (30_encoding R72) -/

@[simp] theorem State.respond_cfgState (st : BitVec 3) (v : Word) (s : State) : (s.respond st v).cfgState = s.cfgState := rfl
@[simp] theorem State.respond_bitWidth (st : BitVec 3) (v : Word) (s : State) : (s.respond st v).bitWidth = s.bitWidth := rfl
@[simp] theorem State.respond_byteWidth (st : BitVec 3) (v : Word) (s : State) : (s.respond st v).byteWidth = s.byteWidth := rfl
@[simp] theorem State.respond_bufBase (st : BitVec 3) (v : Word) (s : State) : (s.respond st v).bufBase = s.bufBase := rfl
@[simp] theorem State.respond_bufLen (st : BitVec 3) (v : Word) (s : State) : (s.respond st v).bufLen = s.bufLen := rfl
@[simp] theorem State.respond_position (st : BitVec 3) (v : Word) (s : State) : (s.respond st v).position = s.position := rfl
@[simp] theorem State.respond_runState (st : BitVec 3) (v : Word) (s : State) : (s.respond st v).runState = s.runState := rfl
@[simp] theorem State.respond_rleRemaining (st : BitVec 3) (v : Word) (s : State) : (s.respond st v).rleRemaining = s.rleRemaining := rfl
@[simp] theorem State.respond_rleValue (st : BitVec 3) (v : Word) (s : State) : (s.respond st v).rleValue = s.rleValue := rfl
@[simp] theorem State.respond_bpGroupsRemaining (st : BitVec 3) (v : Word) (s : State) : (s.respond st v).bpGroupsRemaining = s.bpGroupsRemaining := rfl
@[simp] theorem State.respond_bpGroupPos (st : BitVec 3) (v : Word) (s : State) : (s.respond st v).bpGroupPos = s.bpGroupPos := rfl
@[simp] theorem State.respond_bpGroup (st : BitVec 3) (v : Word) (s : State) : (s.respond st v).bpGroup = s.bpGroup := rfl
@[simp] theorem State.respond_errCode (st : BitVec 3) (v : Word) (s : State) : (s.respond st v).errCode = s.errCode := rfl
@[simp] theorem State.respond_pending (st : BitVec 3) (v : Word) (s : State) : (s.respond st v).pending = s.pending := rfl
@[simp] theorem State.respond_rspValid (st : BitVec 3) (v : Word) (s : State) : (s.respond st v).rspValid = true := rfl
@[simp] theorem State.respond_rspStatus (st : BitVec 3) (v : Word) (s : State) : (s.respond st v).rspStatus = st := rfl
@[simp] theorem State.respond_rspValue (st : BitVec 3) (v : Word) (s : State) : (s.respond st v).rspValue = v := rfl
@[simp] theorem State.respond_statSel (st : BitVec 3) (v : Word) (s : State) : (s.respond st v).statSel = s.statSel := rfl
@[simp] theorem State.respond_memAddrs (st : BitVec 3) (v : Word) (s : State) : (s.respond st v).memAddrs = s.memAddrs := rfl
@[simp] theorem State.respond_mem (st : BitVec 3) (v : Word) (s : State) : (s.respond st v).mem = s.mem := rfl
@[simp] theorem State.respond_windowWritten (st : BitVec 3) (v : Word) (s : State) : (s.respond st v).windowWritten = s.windowWritten := rfl
@[simp] theorem State.respond_draws (st : BitVec 3) (v : Word) (s : State) : (s.respond st v).draws = s.draws := rfl
@[simp] theorem State.respond_host (st : BitVec 3) (v : Word) (s : State) : (s.respond st v).host = s.host := rfl

/-! ## `raise` writes the latch, the response and, for a fatal kind, `cfg_state` (60_exceptions R205, R206) -/

@[simp] theorem State.raise_cfgState (k : ErrKind) (s : State) : (s.raise k).cfgState = if k.entersFatal then .fatal else s.cfgState := rfl
@[simp] theorem State.raise_bitWidth (k : ErrKind) (s : State) : (s.raise k).bitWidth = s.bitWidth := rfl
@[simp] theorem State.raise_byteWidth (k : ErrKind) (s : State) : (s.raise k).byteWidth = s.byteWidth := rfl
@[simp] theorem State.raise_bufBase (k : ErrKind) (s : State) : (s.raise k).bufBase = s.bufBase := rfl
@[simp] theorem State.raise_bufLen (k : ErrKind) (s : State) : (s.raise k).bufLen = s.bufLen := rfl
@[simp] theorem State.raise_position (k : ErrKind) (s : State) : (s.raise k).position = s.position := rfl
@[simp] theorem State.raise_runState (k : ErrKind) (s : State) : (s.raise k).runState = s.runState := rfl
@[simp] theorem State.raise_rleRemaining (k : ErrKind) (s : State) : (s.raise k).rleRemaining = s.rleRemaining := rfl
@[simp] theorem State.raise_rleValue (k : ErrKind) (s : State) : (s.raise k).rleValue = s.rleValue := rfl
@[simp] theorem State.raise_bpGroupsRemaining (k : ErrKind) (s : State) : (s.raise k).bpGroupsRemaining = s.bpGroupsRemaining := rfl
@[simp] theorem State.raise_bpGroupPos (k : ErrKind) (s : State) : (s.raise k).bpGroupPos = s.bpGroupPos := rfl
@[simp] theorem State.raise_bpGroup (k : ErrKind) (s : State) : (s.raise k).bpGroup = s.bpGroup := rfl
@[simp] theorem State.raise_errCode (k : ErrKind) (s : State) : (s.raise k).errCode = k.code := rfl
@[simp] theorem State.raise_pending (k : ErrKind) (s : State) : (s.raise k).pending = s.pending := rfl
@[simp] theorem State.raise_rspValid (k : ErrKind) (s : State) : (s.raise k).rspValid = true := rfl
@[simp] theorem State.raise_rspStatus (k : ErrKind) (s : State) : (s.raise k).rspStatus = k.code := rfl
@[simp] theorem State.raise_rspValue (k : ErrKind) (s : State) : (s.raise k).rspValue = 0 := rfl
@[simp] theorem State.raise_statSel (k : ErrKind) (s : State) : (s.raise k).statSel = s.statSel := rfl
@[simp] theorem State.raise_memAddrs (k : ErrKind) (s : State) : (s.raise k).memAddrs = s.memAddrs := rfl
@[simp] theorem State.raise_mem (k : ErrKind) (s : State) : (s.raise k).mem = s.mem := rfl
@[simp] theorem State.raise_windowWritten (k : ErrKind) (s : State) : (s.raise k).windowWritten = s.windowWritten := rfl
@[simp] theorem State.raise_draws (k : ErrKind) (s : State) : (s.raise k).draws = s.draws := rfl
@[simp] theorem State.raise_host (k : ErrKind) (s : State) : (s.raise k).host = s.host := rfl

/-! ## Reading writes the read port's trace and uses up free bytes (20_memory R53, R60) -/

@[simp] theorem State.noteReads_cfgState (off n : Nat) (s : State) : (s.noteReads off n).cfgState = s.cfgState := rfl
@[simp] theorem State.noteReads_bitWidth (off n : Nat) (s : State) : (s.noteReads off n).bitWidth = s.bitWidth := rfl
@[simp] theorem State.noteReads_byteWidth (off n : Nat) (s : State) : (s.noteReads off n).byteWidth = s.byteWidth := rfl
@[simp] theorem State.noteReads_bufBase (off n : Nat) (s : State) : (s.noteReads off n).bufBase = s.bufBase := rfl
@[simp] theorem State.noteReads_bufLen (off n : Nat) (s : State) : (s.noteReads off n).bufLen = s.bufLen := rfl
@[simp] theorem State.noteReads_position (off n : Nat) (s : State) : (s.noteReads off n).position = s.position := rfl
@[simp] theorem State.noteReads_runState (off n : Nat) (s : State) : (s.noteReads off n).runState = s.runState := rfl
@[simp] theorem State.noteReads_rleRemaining (off n : Nat) (s : State) : (s.noteReads off n).rleRemaining = s.rleRemaining := rfl
@[simp] theorem State.noteReads_rleValue (off n : Nat) (s : State) : (s.noteReads off n).rleValue = s.rleValue := rfl
@[simp] theorem State.noteReads_bpGroupsRemaining (off n : Nat) (s : State) : (s.noteReads off n).bpGroupsRemaining = s.bpGroupsRemaining := rfl
@[simp] theorem State.noteReads_bpGroupPos (off n : Nat) (s : State) : (s.noteReads off n).bpGroupPos = s.bpGroupPos := rfl
@[simp] theorem State.noteReads_bpGroup (off n : Nat) (s : State) : (s.noteReads off n).bpGroup = s.bpGroup := rfl
@[simp] theorem State.noteReads_errCode (off n : Nat) (s : State) : (s.noteReads off n).errCode = s.errCode := rfl
@[simp] theorem State.noteReads_pending (off n : Nat) (s : State) : (s.noteReads off n).pending = s.pending := rfl
@[simp] theorem State.noteReads_rspValid (off n : Nat) (s : State) : (s.noteReads off n).rspValid = s.rspValid := rfl
@[simp] theorem State.noteReads_rspStatus (off n : Nat) (s : State) : (s.noteReads off n).rspStatus = s.rspStatus := rfl
@[simp] theorem State.noteReads_rspValue (off n : Nat) (s : State) : (s.noteReads off n).rspValue = s.rspValue := rfl
@[simp] theorem State.noteReads_statSel (off n : Nat) (s : State) : (s.noteReads off n).statSel = s.statSel := rfl
@[simp] theorem State.noteReads_memAddrs (off n : Nat) (s : State) : (s.noteReads off n).memAddrs = s.memAddrs ++ (List.range n).map fun j => s.bufAddr (off + j) := rfl
@[simp] theorem State.noteReads_mem (off n : Nat) (s : State) : (s.noteReads off n).mem = s.mem := rfl
@[simp] theorem State.noteReads_windowWritten (off n : Nat) (s : State) : (s.noteReads off n).windowWritten = s.windowWritten := rfl
@[simp] theorem State.noteReads_draws (off n : Nat) (s : State) : (s.noteReads off n).draws = if s.windowWritten then s.draws + n else s.draws := rfl
@[simp] theorem State.noteReads_host (off n : Nat) (s : State) : (s.noteReads off n).host = s.host := rfl

/-! ## `restart` clears the run, `position` and the latch (40_config_init R100, R110) -/

@[simp] theorem State.restart_cfgState (s : State) : (s.restart).cfgState = s.cfgState := rfl
@[simp] theorem State.restart_bitWidth (s : State) : (s.restart).bitWidth = s.bitWidth := rfl
@[simp] theorem State.restart_byteWidth (s : State) : (s.restart).byteWidth = s.byteWidth := rfl
@[simp] theorem State.restart_bufBase (s : State) : (s.restart).bufBase = s.bufBase := rfl
@[simp] theorem State.restart_bufLen (s : State) : (s.restart).bufLen = s.bufLen := rfl
@[simp] theorem State.restart_position (s : State) : (s.restart).position = 0 := rfl
@[simp] theorem State.restart_runState (s : State) : (s.restart).runState = .needsHeader := rfl
@[simp] theorem State.restart_rleRemaining (s : State) : (s.restart).rleRemaining = 0 := rfl
@[simp] theorem State.restart_rleValue (s : State) : (s.restart).rleValue = 0 := rfl
@[simp] theorem State.restart_bpGroupsRemaining (s : State) : (s.restart).bpGroupsRemaining = 0 := rfl
@[simp] theorem State.restart_bpGroupPos (s : State) : (s.restart).bpGroupPos = 0 := rfl
@[simp] theorem State.restart_bpGroup (s : State) : (s.restart).bpGroup = #v[0, 0, 0, 0, 0, 0, 0, 0] := rfl
@[simp] theorem State.restart_errCode (s : State) : (s.restart).errCode = 0 := rfl
@[simp] theorem State.restart_pending (s : State) : (s.restart).pending = s.pending := rfl
@[simp] theorem State.restart_rspValid (s : State) : (s.restart).rspValid = s.rspValid := rfl
@[simp] theorem State.restart_rspStatus (s : State) : (s.restart).rspStatus = s.rspStatus := rfl
@[simp] theorem State.restart_rspValue (s : State) : (s.restart).rspValue = s.rspValue := rfl
@[simp] theorem State.restart_statSel (s : State) : (s.restart).statSel = s.statSel := rfl
@[simp] theorem State.restart_memAddrs (s : State) : (s.restart).memAddrs = s.memAddrs := rfl
@[simp] theorem State.restart_mem (s : State) : (s.restart).mem = s.mem := rfl
@[simp] theorem State.restart_windowWritten (s : State) : (s.restart).windowWritten = s.windowWritten := rfl
@[simp] theorem State.restart_draws (s : State) : (s.restart).draws = s.draws := rfl
@[simp] theorem State.restart_host (s : State) : (s.restart).host = s.host := rfl

/-! ## Taking a command holds it, and INIT and CONFIG end the interval of 20_memory R60 -/

@[simp] theorem State.issue_cfgState (w : BitVec 66) (l : Nat) (s : State) : (s.issue w l).cfgState = s.cfgState := rfl
@[simp] theorem State.issue_bitWidth (w : BitVec 66) (l : Nat) (s : State) : (s.issue w l).bitWidth = s.bitWidth := rfl
@[simp] theorem State.issue_byteWidth (w : BitVec 66) (l : Nat) (s : State) : (s.issue w l).byteWidth = s.byteWidth := rfl
@[simp] theorem State.issue_bufBase (w : BitVec 66) (l : Nat) (s : State) : (s.issue w l).bufBase = s.bufBase := rfl
@[simp] theorem State.issue_bufLen (w : BitVec 66) (l : Nat) (s : State) : (s.issue w l).bufLen = s.bufLen := rfl
@[simp] theorem State.issue_position (w : BitVec 66) (l : Nat) (s : State) : (s.issue w l).position = s.position := rfl
@[simp] theorem State.issue_runState (w : BitVec 66) (l : Nat) (s : State) : (s.issue w l).runState = s.runState := rfl
@[simp] theorem State.issue_rleRemaining (w : BitVec 66) (l : Nat) (s : State) : (s.issue w l).rleRemaining = s.rleRemaining := rfl
@[simp] theorem State.issue_rleValue (w : BitVec 66) (l : Nat) (s : State) : (s.issue w l).rleValue = s.rleValue := rfl
@[simp] theorem State.issue_bpGroupsRemaining (w : BitVec 66) (l : Nat) (s : State) : (s.issue w l).bpGroupsRemaining = s.bpGroupsRemaining := rfl
@[simp] theorem State.issue_bpGroupPos (w : BitVec 66) (l : Nat) (s : State) : (s.issue w l).bpGroupPos = s.bpGroupPos := rfl
@[simp] theorem State.issue_bpGroup (w : BitVec 66) (l : Nat) (s : State) : (s.issue w l).bpGroup = s.bpGroup := rfl
@[simp] theorem State.issue_errCode (w : BitVec 66) (l : Nat) (s : State) : (s.issue w l).errCode = s.errCode := rfl
@[simp] theorem State.issue_pending (w : BitVec 66) (l : Nat) (s : State) : (s.issue w l).pending = some ⟨w, l⟩ := rfl
@[simp] theorem State.issue_rspValid (w : BitVec 66) (l : Nat) (s : State) : (s.issue w l).rspValid = s.rspValid := rfl
@[simp] theorem State.issue_rspStatus (w : BitVec 66) (l : Nat) (s : State) : (s.issue w l).rspStatus = s.rspStatus := rfl
@[simp] theorem State.issue_rspValue (w : BitVec 66) (l : Nat) (s : State) : (s.issue w l).rspValue = s.rspValue := rfl
@[simp] theorem State.issue_statSel (w : BitVec 66) (l : Nat) (s : State) : (s.issue w l).statSel = s.statSel := rfl
@[simp] theorem State.issue_memAddrs (w : BitVec 66) (l : Nat) (s : State) : (s.issue w l).memAddrs = s.memAddrs := rfl
@[simp] theorem State.issue_mem (w : BitVec 66) (l : Nat) (s : State) : (s.issue w l).mem = s.mem := rfl
@[simp] theorem State.issue_windowWritten (w : BitVec 66) (l : Nat) (s : State) : (s.issue w l).windowWritten = if startsInterval w then false else s.windowWritten := rfl
@[simp] theorem State.issue_draws (w : BitVec 66) (l : Nat) (s : State) : (s.issue w l).draws = s.draws := rfl
@[simp] theorem State.issue_host (w : BitVec 66) (l : Nat) (s : State) : (s.issue w l).host = s.host := rfl

/-! ## A host write changes memory and the breach mark (20_memory R60) -/

@[simp] theorem State.hostWrite_cfgState (a : Word) (b : Byte) (s : State) : (s.hostWrite a b).cfgState = s.cfgState := rfl
@[simp] theorem State.hostWrite_bitWidth (a : Word) (b : Byte) (s : State) : (s.hostWrite a b).bitWidth = s.bitWidth := rfl
@[simp] theorem State.hostWrite_byteWidth (a : Word) (b : Byte) (s : State) : (s.hostWrite a b).byteWidth = s.byteWidth := rfl
@[simp] theorem State.hostWrite_bufBase (a : Word) (b : Byte) (s : State) : (s.hostWrite a b).bufBase = s.bufBase := rfl
@[simp] theorem State.hostWrite_bufLen (a : Word) (b : Byte) (s : State) : (s.hostWrite a b).bufLen = s.bufLen := rfl
@[simp] theorem State.hostWrite_position (a : Word) (b : Byte) (s : State) : (s.hostWrite a b).position = s.position := rfl
@[simp] theorem State.hostWrite_runState (a : Word) (b : Byte) (s : State) : (s.hostWrite a b).runState = s.runState := rfl
@[simp] theorem State.hostWrite_rleRemaining (a : Word) (b : Byte) (s : State) : (s.hostWrite a b).rleRemaining = s.rleRemaining := rfl
@[simp] theorem State.hostWrite_rleValue (a : Word) (b : Byte) (s : State) : (s.hostWrite a b).rleValue = s.rleValue := rfl
@[simp] theorem State.hostWrite_bpGroupsRemaining (a : Word) (b : Byte) (s : State) : (s.hostWrite a b).bpGroupsRemaining = s.bpGroupsRemaining := rfl
@[simp] theorem State.hostWrite_bpGroupPos (a : Word) (b : Byte) (s : State) : (s.hostWrite a b).bpGroupPos = s.bpGroupPos := rfl
@[simp] theorem State.hostWrite_bpGroup (a : Word) (b : Byte) (s : State) : (s.hostWrite a b).bpGroup = s.bpGroup := rfl
@[simp] theorem State.hostWrite_errCode (a : Word) (b : Byte) (s : State) : (s.hostWrite a b).errCode = s.errCode := rfl
@[simp] theorem State.hostWrite_pending (a : Word) (b : Byte) (s : State) : (s.hostWrite a b).pending = s.pending := rfl
@[simp] theorem State.hostWrite_rspValid (a : Word) (b : Byte) (s : State) : (s.hostWrite a b).rspValid = s.rspValid := rfl
@[simp] theorem State.hostWrite_rspStatus (a : Word) (b : Byte) (s : State) : (s.hostWrite a b).rspStatus = s.rspStatus := rfl
@[simp] theorem State.hostWrite_rspValue (a : Word) (b : Byte) (s : State) : (s.hostWrite a b).rspValue = s.rspValue := rfl
@[simp] theorem State.hostWrite_statSel (a : Word) (b : Byte) (s : State) : (s.hostWrite a b).statSel = s.statSel := rfl
@[simp] theorem State.hostWrite_memAddrs (a : Word) (b : Byte) (s : State) : (s.hostWrite a b).memAddrs = s.memAddrs := rfl
@[simp] theorem State.hostWrite_mem (a : Word) (b : Byte) (s : State) : (s.hostWrite a b).mem = Memory.write s.mem a.toNat b := rfl
@[simp] theorem State.hostWrite_windowWritten (a : Word) (b : Byte) (s : State) : (s.hostWrite a b).windowWritten = (s.windowWritten || s.guards a) := rfl
@[simp] theorem State.hostWrite_draws (a : Word) (b : Byte) (s : State) : (s.hostWrite a b).draws = s.draws := rfl
@[simp] theorem State.hostWrite_host (a : Word) (b : Byte) (s : State) : (s.hostWrite a b).host = s.host := rfl

/-! ## A due command is no longer pending and has read nothing yet (30_encoding R71) -/

@[simp] theorem State.answering_cfgState (s : State) : (s.answering).cfgState = s.cfgState := rfl
@[simp] theorem State.answering_bitWidth (s : State) : (s.answering).bitWidth = s.bitWidth := rfl
@[simp] theorem State.answering_byteWidth (s : State) : (s.answering).byteWidth = s.byteWidth := rfl
@[simp] theorem State.answering_bufBase (s : State) : (s.answering).bufBase = s.bufBase := rfl
@[simp] theorem State.answering_bufLen (s : State) : (s.answering).bufLen = s.bufLen := rfl
@[simp] theorem State.answering_position (s : State) : (s.answering).position = s.position := rfl
@[simp] theorem State.answering_runState (s : State) : (s.answering).runState = s.runState := rfl
@[simp] theorem State.answering_rleRemaining (s : State) : (s.answering).rleRemaining = s.rleRemaining := rfl
@[simp] theorem State.answering_rleValue (s : State) : (s.answering).rleValue = s.rleValue := rfl
@[simp] theorem State.answering_bpGroupsRemaining (s : State) : (s.answering).bpGroupsRemaining = s.bpGroupsRemaining := rfl
@[simp] theorem State.answering_bpGroupPos (s : State) : (s.answering).bpGroupPos = s.bpGroupPos := rfl
@[simp] theorem State.answering_bpGroup (s : State) : (s.answering).bpGroup = s.bpGroup := rfl
@[simp] theorem State.answering_errCode (s : State) : (s.answering).errCode = s.errCode := rfl
@[simp] theorem State.answering_pending (s : State) : (s.answering).pending = none := rfl
@[simp] theorem State.answering_rspValid (s : State) : (s.answering).rspValid = s.rspValid := rfl
@[simp] theorem State.answering_rspStatus (s : State) : (s.answering).rspStatus = s.rspStatus := rfl
@[simp] theorem State.answering_rspValue (s : State) : (s.answering).rspValue = s.rspValue := rfl
@[simp] theorem State.answering_statSel (s : State) : (s.answering).statSel = s.statSel := rfl
@[simp] theorem State.answering_memAddrs (s : State) : (s.answering).memAddrs = [] := rfl
@[simp] theorem State.answering_mem (s : State) : (s.answering).mem = s.mem := rfl
@[simp] theorem State.answering_windowWritten (s : State) : (s.answering).windowWritten = s.windowWritten := rfl
@[simp] theorem State.answering_draws (s : State) : (s.answering).draws = s.draws := rfl
@[simp] theorem State.answering_host (s : State) : (s.answering).host = s.host := rfl

/-! ## Reset (70_reset_and_hazards R230, R231) -/

@[simp] theorem State.resetBlock_cfgState (s : State) : (s.resetBlock).cfgState = .unconfigured := rfl
@[simp] theorem State.resetBlock_bitWidth (s : State) : (s.resetBlock).bitWidth = 0 := rfl
@[simp] theorem State.resetBlock_byteWidth (s : State) : (s.resetBlock).byteWidth = 0 := rfl
@[simp] theorem State.resetBlock_bufBase (s : State) : (s.resetBlock).bufBase = 0 := rfl
@[simp] theorem State.resetBlock_bufLen (s : State) : (s.resetBlock).bufLen = 0 := rfl
@[simp] theorem State.resetBlock_position (s : State) : (s.resetBlock).position = 0 := rfl
@[simp] theorem State.resetBlock_runState (s : State) : (s.resetBlock).runState = .needsHeader := rfl
@[simp] theorem State.resetBlock_rleRemaining (s : State) : (s.resetBlock).rleRemaining = 0 := rfl
@[simp] theorem State.resetBlock_rleValue (s : State) : (s.resetBlock).rleValue = 0 := rfl
@[simp] theorem State.resetBlock_bpGroupsRemaining (s : State) : (s.resetBlock).bpGroupsRemaining = 0 := rfl
@[simp] theorem State.resetBlock_bpGroupPos (s : State) : (s.resetBlock).bpGroupPos = 0 := rfl
@[simp] theorem State.resetBlock_bpGroup (s : State) : (s.resetBlock).bpGroup = #v[0, 0, 0, 0, 0, 0, 0, 0] := rfl
@[simp] theorem State.resetBlock_errCode (s : State) : (s.resetBlock).errCode = 0 := rfl
@[simp] theorem State.resetBlock_pending (s : State) : (s.resetBlock).pending = none := rfl
@[simp] theorem State.resetBlock_rspValid (s : State) : (s.resetBlock).rspValid = false := rfl
@[simp] theorem State.resetBlock_rspStatus (s : State) : (s.resetBlock).rspStatus = 0 := rfl
@[simp] theorem State.resetBlock_rspValue (s : State) : (s.resetBlock).rspValue = 0 := rfl
@[simp] theorem State.resetBlock_statSel (s : State) : (s.resetBlock).statSel = s.statSel := rfl
@[simp] theorem State.resetBlock_memAddrs (s : State) : (s.resetBlock).memAddrs = [] := rfl
@[simp] theorem State.resetBlock_mem (s : State) : (s.resetBlock).mem = s.mem := rfl
@[simp] theorem State.resetBlock_windowWritten (s : State) : (s.resetBlock).windowWritten = false := rfl
@[simp] theorem State.resetBlock_draws (s : State) : (s.resetBlock).draws = s.draws := rfl
@[simp] theorem State.resetBlock_host (s : State) : (s.resetBlock).host = s.host := rfl

/-! ## Derived views -/

@[simp] theorem State.respond_lane (st : BitVec 3) (v : Word) (s : State) (k : BitVec 3) :
    (s.respond st v).lane k = s.lane k := rfl

@[simp] theorem State.raise_lane (e : ErrKind) (s : State) (k : BitVec 3) : (s.raise e).lane k = s.lane k := rfl

@[simp] theorem State.noteReads_lane (off n : Nat) (s : State) (k : BitVec 3) :
    (s.noteReads off n).lane k = s.lane k := rfl

@[simp] theorem State.noteReads_bufAddr (off n : Nat) (s : State) (i : Nat) :
    (s.noteReads off n).bufAddr i = s.bufAddr i := rfl

/-- Where no byte is read, nothing is noted. -/
@[simp] theorem State.noteReads_zero (off : Nat) (s : State) : s.noteReads off 0 = s := by
  simp [State.noteReads]

/-- Reads after reads are the reads of both, the free bytes counted on. -/
theorem State.busByte_noteReads (off n o j : Nat) (s : State) : (s.noteReads off n).busByte o j = s.busByte o (n + j) := by
  unfold State.busByte State.bufAddr
  simp only [State.noteReads_windowWritten, State.noteReads_draws, State.noteReads_mem, State.noteReads_bufBase]
  split <;> simp_all [Nat.add_assoc]

/-- Two reads in a row at adjacent offsets are one longer read. -/
theorem State.noteReads_noteReads (off n m : Nat) (s : State) :
    (s.noteReads off n).noteReads (off + n) m = s.noteReads off (n + m) := by
  have h : (List.range (n + m)).map (fun j => s.bufAddr (off + j)) =
      (List.range n).map (fun j => s.bufAddr (off + j)) ++ (List.range m).map (fun j => s.bufAddr (off + n + j)) := by
    rw [List.range_add, List.map_append, List.map_map]
    simp [Function.comp_def, Nat.add_assoc]
  unfold State.noteReads
  simp only [h, List.append_assoc, State.mk.injEq, true_and, and_true]
  refine ⟨rfl, ?_⟩
  split <;> simp_all [Nat.add_assoc]

end Sys2Proof.Machine
end

