-- ==== Sys2Proof/Laws/Operands.lean ====
section
/-! SUPPORT. What each read of the stream can do, said once. -/

namespace Sys2Proof.Machine

@[simp] theorem State.readBytes_length (s : State) (off n : Nat) : (s.readBytes off n).length = n := by
  simp [State.readBytes]

@[simp] theorem State.readBytes_zero (s : State) (off : Nat) : s.readBytes off 0 = [] := rfl

/-- The bytes read after `n` others, and with `position` or other registers moved on, are the later bytes of one longer
read. -/
theorem State.readBytes_noteReads (off n o m : Nat) (s : State) :
    (s.noteReads off n).readBytes o m = (List.range m).map fun j => s.busByte (o + j) (n + j) := by
  simp [State.readBytes, State.busByte_noteReads]

theorem State.headerBytes_length (s : State) :
    s.headerBytes.length = min 5 (s.bufLen.toNat - s.position.toNat) := by
  simp [State.headerBytes, Config.maxVarintBytes]

/-- A header's varint lies inside the buffer. -/
theorem State.header_fits {s : State} {h : Word} {n : Nat} (e : decodeVarint s.headerBytes = .value h n) :
    1 ≤ n ∧ n ≤ 5 ∧ s.position.toNat + n ≤ s.bufLen.toNat := by
  have := decodeVarint_value_bounds e
  rw [State.headerBytes_length] at this
  omega

/-- With no byte left there is no header byte to read (42_run_header R141). -/
theorem State.headerBytes_at_end {s : State} (h : s.bufLen.toNat ≤ s.position.toNat) : s.headerBytes = [] := by
  apply List.eq_nil_of_length_eq_zero
  rw [State.headerBytes_length]
  omega

/-- Advancing `position` inside the buffer does not wrap (10_state R26). -/
theorem position_add {p : Word} {n : Nat} : p + BitVec.ofNat 32 n = BitVec.ofNat 32 (p.toNat + n) := by
  apply BitVec.eq_of_toNat_eq
  simp [BitVec.toNat_add]

theorem position_toNat {p l : Word} {n : Nat} (h : p.toNat + n ≤ l.toNat) :
    (BitVec.ofNat 32 (p.toNat + n)).toNat = p.toNat + n := by
  have := l.isLt
  simp only [BitVec.toNat_ofNat]
  omega

/-- ReadVarint answers what the bytes at `position` say and writes no register (42_run_header R142). -/
theorem State.readVarint_of_value {s : State} {h : Word} {n : Nat} (e : decodeVarint s.headerBytes = .value h n) :
    s.readVarint = .ok (h, n) (s.noteReads s.position.toNat n) := by
  simp [State.readVarint, e]

theorem State.readVarint_of_truncated {s : State} {n : Nat} (e : decodeVarint s.headerBytes = .truncated n) :
    s.readVarint = .raised .truncated (s.noteReads s.position.toNat n) := by
  simp [State.readVarint, e]

theorem State.readVarint_of_malformed {s : State} {n : Nat} (e : decodeVarint s.headerBytes = .malformed n) :
    s.readVarint = .raised .malformedVarint (s.noteReads s.position.toNat n) := by
  simp [State.readVarint, e]

/-- ReadRleValue inside the buffer (44_rle_value R180, R181). -/
theorem State.readRleValue_of_fits {s : State} (h : s.position.toNat + s.byteWidth.toNat ≤ s.bufLen.toNat) :
    s.readRleValue = .ok (rleValueOf (s.readBytes s.position.toNat s.byteWidth.toNat))
      { s.noteReads s.position.toNat s.byteWidth.toNat with
        position := BitVec.ofNat 32 (s.position.toNat + s.byteWidth.toNat) } := by
  simp only [State.readRleValue]
  rw [if_neg (by omega), position_add]

/-- ReadRleValue past the end (44_rle_value R184). -/
theorem State.readRleValue_of_short {s : State} (h : s.bufLen.toNat < s.position.toNat + s.byteWidth.toNat) :
    s.readRleValue = .raised .truncated s := by
  simp [State.readRleValue, h]

/-- ReadGroup inside the buffer (43_bitpacked_group R160, R161). -/
theorem State.readGroup_of_fits {s : State} (h : s.position.toNat + s.bitWidth.toNat ≤ s.bufLen.toNat) :
    s.readGroup = .ok ()
      { s.noteReads s.position.toNat s.bitWidth.toNat with
        bpGroup := unpack s.bitWidth.toNat (s.readBytes s.position.toNat s.bitWidth.toNat)
        position := BitVec.ofNat 32 (s.position.toNat + s.bitWidth.toNat) } := by
  simp only [State.readGroup]
  rw [if_neg (by omega), position_add]

/-- ReadGroup past the end (43_bitpacked_group R162). -/
theorem State.readGroup_of_short {s : State} (h : s.bufLen.toNat < s.position.toNat + s.bitWidth.toNat) :
    s.readGroup = .raised .truncated s := by
  simp [State.readGroup, h]

/-! ## Values -/

theorem leNat_lt (bs : List Byte) : leNat bs < 2 ^ (8 * bs.length) := by
  induction bs with
  | nil => simp [leNat]
  | cons b bs ih =>
    have hb : b.toNat < 256 := b.isLt
    simp only [leNat, List.length_cons, Nat.mul_add, Nat.pow_add]
    norm_num
    omega

/-- An RLE value lies in its bytes (44_rle_value R182). -/
theorem rleValueOf_toNat_lt (bs : List Byte) : (rleValueOf bs).toNat < 2 ^ (8 * bs.length) :=
  Nat.lt_of_le_of_lt (Nat.mod_le _ _) (leNat_lt bs)

/-- A lane lies in W bits (43_bitpacked_group R164). -/
theorem unpackLane_toNat_lt (w : Nat) (bs : List Byte) (k : Nat) : (unpackLane w bs k).toNat < 2 ^ w :=
  Nat.lt_of_le_of_lt (Nat.mod_le _ _) (Nat.mod_lt _ (Nat.two_pow_pos w))

/-- The lanes of a group are its `unpackLane`s. -/
theorem unpack_get (w : Nat) (bs : List Byte) (k : Fin 8) : (unpack w bs).get k = unpackLane w bs k.val := by
  fin_cases k <;> rfl

end Sys2Proof.Machine
end

