-- ==== Sys2Proof/Laws/Commands.lean ====
section
/-! SUPPORT. What each command can do: the prologue, CONFIG and INIT, the run headers, and NEXT case by case. -/

namespace Sys2Proof.Machine

/-! ## The prologue -/

theorem State.prologue_of_encoding3 {s : State} (h : s.cfgState = .encoding3) (f : State → State) :
    s.prologue f = s.raise .internalFault := by simp [State.prologue, h]

theorem State.prologue_of_fatal {s : State} (h : s.cfgState = .fatal) (f : State → State) :
    s.prologue f = s.respond s.errCode 0 := by simp [State.prologue, h]

theorem State.prologue_of_unconfigured {s : State} (h : s.cfgState = .unconfigured) (f : State → State) :
    s.prologue f = f s := by simp [State.prologue, h]

theorem State.prologue_of_configured {s : State} (h : s.cfgState = .configured) (f : State → State) :
    s.prologue f = f s := by simp [State.prologue, h]

/-! ## CONFIG and INIT -/

theorem State.configBody_of_legal {w : Word} (h1 : 1 ≤ w.toNat) (h2 : w.toNat ≤ 32) (s : State) :
    s.configBody w = State.respond Status.ok.code 0
      { s.restart with
        bitWidth := w.setWidth 6, byteWidth := byteWidthOf w.toNat, bufBase := 0, bufLen := 0,
        cfgState := .configured } := by
  simp [State.configBody, legalWidth, h1, h2]

theorem State.configBody_of_illegal {w : Word} (h : ¬ (1 ≤ w.toNat ∧ w.toNat ≤ 32)) (s : State) :
    s.configBody w = s.raise .invalidConfiguration := by
  simp only [State.configBody, legalWidth, Bool.and_eq_true, decide_eq_true_eq, if_neg h]

theorem State.initBody_of_unconfigured {s : State} (h : s.cfgState = .unconfigured) (base len : Word) :
    s.initBody base len = s.respondIllegal := by simp [State.initBody, h]

theorem State.initBody_of_legal {s : State} (h : s.cfgState = .configured) {base len : Word}
    (hw : base.toNat + len.toNat ≤ 2 ^ 32) :
    s.initBody base len = State.respond Status.ok.code 0 { s.restart with bufBase := base, bufLen := len } := by
  simp only [State.initBody, h, legalWindow, decide_eq_true_eq, if_pos hw]
  rfl

theorem State.initBody_of_overflow {s : State} {base len : Word} (hw : 2 ^ 32 < base.toNat + len.toNat) :
    s.initBody base len = s.respondIllegal := by
  simp only [State.initBody, legalWindow, decide_eq_true_eq, if_neg (Nat.not_le.mpr hw), ite_self]

/-! ## The run headers -/

theorem State.enterRleRun_of_zero (s : State) : s.enterRleRun 0 = .raised .emptyRun s := rfl

theorem State.enterRleRun_of_short {s : State} {c : BitVec 31} (hc : c ≠ 0)
    (h : s.bufLen.toNat < s.position.toNat + s.byteWidth.toNat) : s.enterRleRun c = .raised .truncated s := by
  simp only [State.enterRleRun, if_neg hc, State.readRleValue_of_short h]

theorem State.enterRleRun_of_fits {s : State} {c : BitVec 31} (hc : c ≠ 0)
    (h : s.position.toNat + s.byteWidth.toNat ≤ s.bufLen.toNat) :
    s.enterRleRun c = .ok ()
      { s.noteReads s.position.toNat s.byteWidth.toNat with
        position := BitVec.ofNat 32 (s.position.toNat + s.byteWidth.toNat)
        rleValue := rleValueOf (s.readBytes s.position.toNat s.byteWidth.toNat)
        rleRemaining := c.zeroExtend 32
        runState := .inRle } := by
  simp only [State.enterRleRun, if_neg hc, State.readRleValue_of_fits h]

theorem State.enterBitpackedRun_of_zero (s : State) : s.enterBitpackedRun 0 = .raised .emptyRun s := rfl

theorem State.enterBitpackedRun_of_count {s : State} {c : BitVec 31} (hc : c ≠ 0) :
    s.enterBitpackedRun c = .ok ()
      { s with bpGroupsRemaining := c.zeroExtend 32, bpGroupPos := 0, runState := .inBitpacked } := by
  simp only [State.enterBitpackedRun, if_neg hc]

/-- The state NEXT runs a header's instruction in: the varint's bytes are consumed (42_run_header R143). -/
def State.afterHeader (s : State) (n : Nat) : State :=
  { s.noteReads s.position.toNat n with position := BitVec.ofNat 32 (s.position.toNat + n) }

theorem State.readRunHeader_of_truncated {s : State} {n : Nat} (e : decodeVarint s.headerBytes = .truncated n) :
    s.readRunHeader = .raised .truncated (s.noteReads s.position.toNat n) := by
  simp [State.readRunHeader, State.readVarint_of_truncated e]

theorem State.readRunHeader_of_malformed {s : State} {n : Nat} (e : decodeVarint s.headerBytes = .malformed n) :
    s.readRunHeader = .raised .malformedVarint (s.noteReads s.position.toNat n) := by
  simp [State.readRunHeader, State.readVarint_of_malformed e]

theorem State.readRunHeader_of_rle {s : State} {h : Word} {n : Nat} {c : BitVec 31}
    (e : decodeVarint s.headerBytes = .value h n) (hd : decodeHeader h = .rleRun c) :
    s.readRunHeader = (s.afterHeader n).enterRleRun c := by
  simp [State.readRunHeader, State.readVarint_of_value e, hd, State.afterHeader, position_add]

theorem State.readRunHeader_of_bitpacked {s : State} {h : Word} {n : Nat} {c : BitVec 31}
    (e : decodeVarint s.headerBytes = .value h n) (hd : decodeHeader h = .bitpackedRun c) :
    s.readRunHeader = (s.afterHeader n).enterBitpackedRun c := by
  simp [State.readRunHeader, State.readVarint_of_value e, hd, State.afterHeader, position_add]

/-! ## NEXT -/

theorem exec_next_of_ready {s : State} (h : s.Ready) :
    exec .next s = .next (if s.runState = .needsHeader then s.readRunHeader.finish fun _ u => u.serve else s.serve) := by
  simp only [exec, execNext, State.prologue_of_configured h.1, State.nextBody, h.1, h.2]
  simp

theorem exec_next_of_header {s : State} (h : s.Ready) (hr : s.runState = .needsHeader) :
    exec .next s = .next (s.readRunHeader.finish fun _ u => u.serve) := by
  rw [exec_next_of_ready h, if_pos hr]

theorem exec_next_of_run {s : State} (h : s.Ready) (hr : s.runState ≠ .needsHeader) :
    exec .next s = .next s.serve := by
  rw [exec_next_of_ready h, if_neg hr]

theorem State.serve_of_rle {s : State} (hr : s.runState = .inRle) (h0 : s.rleRemaining ≠ 0) :
    s.serve = State.respond 0 s.rleValue
      { s with
        rleRemaining := s.rleRemaining - 1
        runState := if s.rleRemaining = 1 then .needsHeader else .inRle } := by
  simp only [State.serve, hr, State.serveRle, if_neg h0, Status.code]

theorem State.serve_of_lane {s : State} (hr : s.runState = .inBitpacked) (h0 : s.bpGroupPos ≠ 0) :
    s.serve = State.respond 0 (s.lane s.bpGroupPos)
      { s with
        bpGroupPos := s.bpGroupPos + 1
        runState := if s.bpGroupPos = 7 ∧ s.bpGroupsRemaining = 0 then .needsHeader else .inBitpacked } := by
  simp only [State.serve, hr, State.serveBitpacked, if_neg h0, State.serveLane, Status.code]

theorem State.serve_of_new_group {s : State} (hr : s.runState = .inBitpacked) (h0 : s.bpGroupPos = 0)
    (hg : s.bpGroupsRemaining ≠ 0) (hf : s.position.toNat + s.bitWidth.toNat ≤ s.bufLen.toNat) :
    s.serve = State.respond 0 (unpackLane s.bitWidth.toNat (s.readBytes s.position.toNat s.bitWidth.toNat) 0)
      { s.noteReads s.position.toNat s.bitWidth.toNat with
        bpGroup := unpack s.bitWidth.toNat (s.readBytes s.position.toNat s.bitWidth.toNat)
        position := BitVec.ofNat 32 (s.position.toNat + s.bitWidth.toNat)
        bpGroupsRemaining := s.bpGroupsRemaining - 1
        bpGroupPos := 1
        runState := .inBitpacked } := by
  simp only [State.serve, hr, State.serveBitpacked, if_neg hg, State.readGroup_of_fits hf, Attempt.finish,
    State.serveLane, State.noteReads_bpGroupPos, State.noteReads_bpGroupsRemaining, h0, Status.code]
  rfl

theorem State.serve_of_short_group {s : State} (hr : s.runState = .inBitpacked) (h0 : s.bpGroupPos = 0)
    (hg : s.bpGroupsRemaining ≠ 0) (hf : s.bufLen.toNat < s.position.toNat + s.bitWidth.toNat) :
    s.serve = s.raise .truncated := by
  simp only [State.serve, hr, State.serveBitpacked, if_pos h0, if_neg hg, State.readGroup_of_short hf, Attempt.finish]

/-- Everything the case on `run_state` can do in a state whose run is not broken. -/
theorem State.serve_cases {s : State} (hr : s.runState = .inRle ∧ s.rleRemaining ≠ 0 ∨
    s.runState = .inBitpacked ∧ (s.bpGroupsRemaining ≠ 0 ∨ s.bpGroupPos ≠ 0)) :
    (s.runState = .inRle ∧ s.serve = State.respond 0 s.rleValue
      { s with
        rleRemaining := s.rleRemaining - 1
        runState := if s.rleRemaining = 1 then .needsHeader else .inRle }) ∨
    (s.runState = .inBitpacked ∧ s.bpGroupPos ≠ 0 ∧ s.serve = State.respond 0 (s.lane s.bpGroupPos)
      { s with
        bpGroupPos := s.bpGroupPos + 1
        runState := if s.bpGroupPos = 7 ∧ s.bpGroupsRemaining = 0 then .needsHeader else .inBitpacked }) ∨
    (s.runState = .inBitpacked ∧ s.bpGroupPos = 0 ∧ s.bpGroupsRemaining ≠ 0 ∧
      s.position.toNat + s.bitWidth.toNat ≤ s.bufLen.toNat ∧
      s.serve = State.respond 0 (unpackLane s.bitWidth.toNat (s.readBytes s.position.toNat s.bitWidth.toNat) 0)
        { s.noteReads s.position.toNat s.bitWidth.toNat with
          bpGroup := unpack s.bitWidth.toNat (s.readBytes s.position.toNat s.bitWidth.toNat)
          position := BitVec.ofNat 32 (s.position.toNat + s.bitWidth.toNat)
          bpGroupsRemaining := s.bpGroupsRemaining - 1
          bpGroupPos := 1
          runState := .inBitpacked }) ∨
    (s.runState = .inBitpacked ∧ s.bpGroupPos = 0 ∧ s.bpGroupsRemaining ≠ 0 ∧
      s.bufLen.toNat < s.position.toNat + s.bitWidth.toNat ∧ s.serve = s.raise .truncated) := by
  obtain ⟨hr, h0⟩ | ⟨hr, h0⟩ := hr
  · exact .inl ⟨hr, State.serve_of_rle hr h0⟩
  · by_cases hp : s.bpGroupPos = 0
    · have hg : s.bpGroupsRemaining ≠ 0 := h0.resolve_right (not_not.mpr hp)
      by_cases hf : s.position.toNat + s.bitWidth.toNat ≤ s.bufLen.toNat
      · exact .inr (.inr (.inl ⟨hr, hp, hg, hf, State.serve_of_new_group hr hp hg hf⟩))
      · exact .inr (.inr (.inr ⟨hr, hp, hg, by omega, State.serve_of_short_group hr hp hg (by omega)⟩))
    · exact .inr (.inl ⟨hr, hp, State.serve_of_lane hr hp⟩)

/-- Everything ReadRunHeader can do (42_run_header R140, R147, R148). -/
theorem State.readRunHeader_cases (s : State) :
    (∃ n, decodeVarint s.headerBytes = .truncated n ∧
      s.readRunHeader = .raised .truncated (s.noteReads s.position.toNat n)) ∨
    (∃ n, decodeVarint s.headerBytes = .malformed n ∧
      s.readRunHeader = .raised .malformedVarint (s.noteReads s.position.toNat n)) ∨
    (∃ h n, decodeVarint s.headerBytes = .value h n ∧ h.toNat / 2 = 0 ∧
      s.readRunHeader = .raised .emptyRun (s.afterHeader n)) ∨
    (∃ h n, decodeVarint s.headerBytes = .value h n ∧ h.toNat / 2 ≠ 0 ∧ h.toNat % 2 = 0 ∧
      s.bufLen.toNat < s.position.toNat + n + s.byteWidth.toNat ∧
      s.readRunHeader = .raised .truncated (s.afterHeader n)) ∨
    (∃ h n, decodeVarint s.headerBytes = .value h n ∧ h.toNat / 2 ≠ 0 ∧ h.toNat % 2 = 0 ∧
      s.position.toNat + n + s.byteWidth.toNat ≤ s.bufLen.toNat ∧
      s.readRunHeader = .ok () { s.noteReads s.position.toNat (n + s.byteWidth.toNat) with
        position := BitVec.ofNat 32 (s.position.toNat + n + s.byteWidth.toNat)
        rleValue := rleValueOf ((List.range s.byteWidth.toNat).map fun j => s.busByte (s.position.toNat + n + j) (n + j))
        rleRemaining := BitVec.ofNat 32 (h.toNat / 2)
        runState := .inRle }) ∨
    (∃ h n, decodeVarint s.headerBytes = .value h n ∧ h.toNat / 2 ≠ 0 ∧ h.toNat % 2 = 1 ∧
      s.readRunHeader = .ok () { s.afterHeader n with
        bpGroupsRemaining := BitVec.ofNat 32 (h.toNat / 2), bpGroupPos := 0, runState := .inBitpacked }) := by
  cases e : decodeVarint s.headerBytes with
  | truncated n => exact .inl ⟨n, rfl, State.readRunHeader_of_truncated e⟩
  | malformed n => exact .inr (.inl ⟨n, rfl, State.readRunHeader_of_malformed e⟩)
  | value h n =>
    have hfit := State.header_fits e
    have hpos : (s.afterHeader n).position.toNat = s.position.toNat + n := position_toNat hfit.2.2
    have hcount : (h.extractLsb' 1 31).zeroExtend 32 = BitVec.ofNat 32 (h.toNat / 2) := by
      apply BitVec.eq_of_toNat_eq
      have := h.isLt
      simp only [BitVec.toNat_setWidth, headerCount_toNat, BitVec.toNat_ofNat]
    by_cases h0 : h.toNat / 2 = 0
    · have hc := (headerCount_eq_zero h).mpr h0
      refine .inr (.inr (.inl ⟨h, n, rfl, h0, ?_⟩))
      obtain ⟨-, hd⟩ | ⟨-, hd⟩ := decodeHeader_cases h
      · rw [State.readRunHeader_of_rle e hd, hc, State.enterRleRun_of_zero]
      · rw [State.readRunHeader_of_bitpacked e hd, hc, State.enterBitpackedRun_of_zero]
    · have hc : h.extractLsb' 1 31 ≠ 0 := mt (headerCount_eq_zero h).mp h0
      obtain ⟨ht, hd⟩ | ⟨ht, hd⟩ := decodeHeader_cases h
      · by_cases hf : s.position.toNat + n + s.byteWidth.toNat ≤ s.bufLen.toNat
        · refine .inr (.inr (.inr (.inr (.inl ⟨h, n, rfl, h0, ht, hf, ?_⟩))))
          rw [State.readRunHeader_of_rle e hd, State.enterRleRun_of_fits hc (by rw [hpos]; exact hf), hpos, hcount]
          congr 1
          have both := congrArg₂ (fun (u : State) (v : Word) => ({ s with
              memAddrs := u.memAddrs, draws := u.draws
              position := BitVec.ofNat 32 (s.position.toNat + n + s.byteWidth.toNat), rleValue := v
              rleRemaining := BitVec.ofNat 32 (h.toNat / 2), runState := .inRle } : State))
            (State.noteReads_noteReads s.position.toNat n s.byteWidth.toNat s)
            (congrArg rleValueOf
              (State.readBytes_noteReads s.position.toNat n (s.position.toNat + n) s.byteWidth.toNat s))
          exact both
        · refine .inr (.inr (.inr (.inl ⟨h, n, rfl, h0, ht, by omega, ?_⟩)))
          rw [State.readRunHeader_of_rle e hd, State.enterRleRun_of_short hc]
          rw [hpos]
          exact Nat.not_le.mp hf
      · refine .inr (.inr (.inr (.inr (.inr ⟨h, n, rfl, h0, ht, ?_⟩))))
        rw [State.readRunHeader_of_bitpacked e hd, State.enterBitpackedRun_of_count hc, hcount]

end Sys2Proof.Machine
end

