-- ==== Sys2Proof/Laws/Environment.lean ====
section
/-! SUPPORT. What no command touches, said once: memory, the breach of the window, and what the host drives and does
next. -/

namespace Sys2Proof.Machine

/-- Two states agree on all that only the host writes (20_memory R50, R60, R63), and on the command taken. -/
def State.SameEnvironment (s t : State) : Prop :=
  t.mem = s.mem ∧ t.windowWritten = s.windowWritten ∧ t.statSel = s.statSel ∧ t.host = s.host ∧ t.pending = s.pending

theorem State.SameEnvironment.refl (s : State) : s.SameEnvironment s := ⟨rfl, rfl, rfl, rfl, rfl⟩

theorem State.SameEnvironment.trans {s t u : State} (h : s.SameEnvironment t) (h' : t.SameEnvironment u) :
    s.SameEnvironment u :=
  ⟨h'.1.trans h.1, h'.2.1.trans h.2.1, h'.2.2.1.trans h.2.2.1, h'.2.2.2.1.trans h.2.2.2.1,
    h'.2.2.2.2.trans h.2.2.2.2⟩

theorem State.respond_environment (st : BitVec 3) (v : Word) (s : State) : s.SameEnvironment (s.respond st v) :=
  ⟨rfl, rfl, rfl, rfl, rfl⟩

theorem State.raise_environment (k : ErrKind) (s : State) : s.SameEnvironment (s.raise k) := ⟨rfl, rfl, rfl, rfl, rfl⟩

/-- The state an attempt ends in, whether it raised or not. -/
def Attempt.state {α : Type} : Attempt α → State
  | .ok _ s => s
  | .raised _ s => s

theorem Attempt.finish_environment {α : Type} {s : State} {r : Attempt α} {go : α → State → State}
    (h : s.SameEnvironment r.state) (hgo : ∀ a (u : State), u.SameEnvironment (go a u)) : s.SameEnvironment (r.finish go) := by
  cases r with
  | ok a u => exact h.trans (hgo a u)
  | raised k u => exact h.trans (State.raise_environment k u)

theorem State.readVarint_environment (s : State) : s.SameEnvironment s.readVarint.state := by
  unfold State.readVarint
  split <;> exact ⟨rfl, rfl, rfl, rfl, rfl⟩

theorem State.readRleValue_environment (s : State) : s.SameEnvironment s.readRleValue.state := by
  unfold State.readRleValue
  dsimp only
  split <;> exact ⟨rfl, rfl, rfl, rfl, rfl⟩

theorem State.readGroup_environment (s : State) : s.SameEnvironment s.readGroup.state := by
  unfold State.readGroup
  dsimp only
  split <;> exact ⟨rfl, rfl, rfl, rfl, rfl⟩

theorem State.enterRleRun_environment (count : BitVec 31) (s : State) :
    s.SameEnvironment (s.enterRleRun count).state := by
  have h := s.readRleValue_environment
  unfold State.enterRleRun
  split
  · exact .refl s
  · split <;> rename_i e <;> rw [e] at h <;> exact h

theorem State.enterBitpackedRun_environment (count : BitVec 31) (s : State) :
    s.SameEnvironment (s.enterBitpackedRun count).state := by
  unfold State.enterBitpackedRun
  split <;> exact ⟨rfl, rfl, rfl, rfl, rfl⟩

theorem State.readRunHeader_environment (s : State) : s.SameEnvironment s.readRunHeader.state := by
  have h := s.readVarint_environment
  unfold State.readRunHeader
  split <;> rename_i e <;> rw [e] at h
  · exact h
  · dsimp only
    split
    · exact h.trans (State.enterRleRun_environment _ _)
    · exact h.trans (State.enterBitpackedRun_environment _ _)
    · exact h
    · exact h
    · exact h

theorem State.serve_environment (s : State) : s.SameEnvironment s.serve := by
  unfold State.serve
  split
  · unfold State.serveRle
    split <;> exact ⟨rfl, rfl, rfl, rfl, rfl⟩
  · unfold State.serveBitpacked
    split
    · split
      · exact s.raise_environment _
      · exact Attempt.finish_environment s.readGroup_environment fun _ _ => ⟨rfl, rfl, rfl, rfl, rfl⟩
    · exact ⟨rfl, rfl, rfl, rfl, rfl⟩
  · exact s.raise_environment _
  · exact s.raise_environment _

theorem State.nextBody_environment (s : State) : s.SameEnvironment s.nextBody := by
  unfold State.nextBody
  split
  · exact s.respond_environment _ _
  · split
    · exact s.respond_environment _ _
    · split
      · exact Attempt.finish_environment s.readRunHeader_environment fun _ u => u.serve_environment
      · exact s.serve_environment

theorem State.configBody_environment (w : Word) (s : State) : s.SameEnvironment (s.configBody w) := by
  unfold State.configBody
  split <;> exact ⟨rfl, rfl, rfl, rfl, rfl⟩

theorem State.initBody_environment (base len : Word) (s : State) : s.SameEnvironment (s.initBody base len) := by
  unfold State.initBody
  split
  · exact s.respond_environment _ _
  · split <;> exact ⟨rfl, rfl, rfl, rfl, rfl⟩

theorem State.prologue_environment {body : State → State} (h : ∀ u : State, u.SameEnvironment (body u)) (s : State) :
    s.SameEnvironment (s.prologue body) := by
  unfold State.prologue
  split
  · exact s.raise_environment _
  · exact s.respond_environment _ _
  · exact h s
  · exact h s

/-- No instruction touches what only the host writes. -/
theorem exec_environment {i : Instr} {s t : State} (h : exec i s = .next t) : s.SameEnvironment t := by
  cases i with
  | next => cases h; exact State.prologue_environment State.nextBody_environment s
  | init base len => cases h; exact State.prologue_environment (State.initBody_environment base len) s
  | config w => cases h; exact State.prologue_environment (State.configBody_environment w) s
  | rleRun count => cases h; exact Attempt.finish_environment (s.enterRleRun_environment count) fun _ u => .refl u
  | bitpackedRun count =>
    cases h; exact Attempt.finish_environment (s.enterBitpackedRun_environment count) fun _ u => .refl u

/-- No command word touches what only the host writes, the reserved opcode included. -/
theorem runCommand_environment {w : BitVec 66} {s t : State} (h : runCommand w s = .next t) : s.SameEnvironment t := by
  unfold runCommand at h
  split at h
  · exact exec_environment h
  · cases h; exact State.prologue_environment (fun u => u.respond_environment _ _) s

end Sys2Proof.Machine
end

