-- ==== Sys2Proof/Laws/Memory.lean ====
section
/-! SUPPORT. The laws of memory: a read after a write, and that every operation keeps the canonical form. -/

namespace Sys2Proof.Machine

/-- A canonical memory from `lo` on lists nothing below `lo`. -/
theorem Memory.read_of_lt {lo a : Nat} {m : Memory} (hm : Memory.wfFrom lo m = true) (h : a < lo) :
    Memory.read m a = Memory.unlisted := by
  induction m generalizing lo with
  | nil => rfl
  | cons c m ih =>
    obtain ⟨k, v⟩ := c
    simp only [Memory.wfFrom, Bool.and_eq_true, decide_eq_true_eq] at hm
    simp only [Memory.read]
    rw [if_neg (by omega)]
    exact ih hm.2 (by omega)

theorem Memory.wfFrom_mono {lo lo' : Nat} (h : lo' ≤ lo) {m : Memory} (hm : Memory.wfFrom lo m = true) :
    Memory.wfFrom lo' m = true := by
  cases m with
  | nil => rfl
  | cons c m =>
    obtain ⟨k, v⟩ := c
    simp only [Memory.wfFrom, Bool.and_eq_true, decide_eq_true_eq] at hm ⊢
    exact ⟨⟨⟨by omega, hm.1.1.2⟩, hm.1.2⟩, hm.2⟩

theorem Memory.cons_wf {lo a : Nat} {b : Byte} {m : Memory} (hlo : lo ≤ a) (ha : a < 2 ^ 32)
    (hm : Memory.wfFrom (a + 1) m = true) : Memory.wfFrom lo (Memory.cons a b m) = true := by
  unfold Memory.cons
  split
  · exact Memory.wfFrom_mono (by omega) hm
  · rename_i hb
    simp only [Memory.wfFrom, Bool.and_eq_true, decide_eq_true_eq]
    exact ⟨⟨⟨hlo, ha⟩, hb⟩, hm⟩

/-- A write keeps the canonical form. -/
theorem Memory.write_wfFrom {lo a : Nat} {b : Byte} {m : Memory} (hlo : lo ≤ a) (ha : a < 2 ^ 32)
    (hm : Memory.wfFrom lo m = true) : Memory.wfFrom lo (Memory.write m a b) = true := by
  induction m generalizing lo with
  | nil => exact Memory.cons_wf hlo ha rfl
  | cons c m ih =>
    obtain ⟨k, v⟩ := c
    have hm' := hm
    simp only [Memory.wfFrom, Bool.and_eq_true, decide_eq_true_eq] at hm
    obtain ⟨⟨⟨h1, h2⟩, h3⟩, h4⟩ := hm
    simp only [Memory.write]
    split
    · refine Memory.cons_wf hlo ha ?_
      simp only [Memory.wfFrom, Bool.and_eq_true, decide_eq_true_eq]
      exact ⟨⟨⟨by omega, h2⟩, h3⟩, h4⟩
    · split
      · subst_vars
        exact Memory.cons_wf hlo ha h4
      · simp only [Memory.wfFrom, Bool.and_eq_true, decide_eq_true_eq]
        exact ⟨⟨⟨h1, h2⟩, h3⟩, ih (by omega) h4⟩

theorem Memory.write_wf {a : Nat} {b : Byte} {m : Memory} (ha : a < 2 ^ 32) (hm : Memory.wf m = true) :
    Memory.wf (Memory.write m a b) = true := Memory.write_wfFrom (Nat.zero_le a) ha hm

theorem Memory.writeBytes_wf {a : Nat} {bs : List Byte} {m : Memory} (ha : a + bs.length ≤ 2 ^ 32)
    (hm : Memory.wf m = true) : Memory.wf (Memory.writeBytes m a bs) = true := by
  induction bs generalizing a m with
  | nil => exact hm
  | cons b bs ih =>
    simp only [List.length_cons] at ha
    exact ih (by omega) (Memory.write_wf (by omega) hm)

theorem Memory.read_cons {lo a x : Nat} {b : Byte} {m : Memory} (hm : Memory.wfFrom lo m = true) (h : a < lo) :
    Memory.read (Memory.cons a b m) x = if x = a then b else Memory.read m x := by
  unfold Memory.cons
  split
  · split
    · subst_vars
      exact Memory.read_of_lt hm h
    · rfl
  · rfl

/-- A read after a write gives the byte written at its address, and the old byte everywhere else. -/
theorem Memory.read_write_from {lo a x : Nat} {b : Byte} {m : Memory} (hm : Memory.wfFrom lo m = true) :
    Memory.read (Memory.write m a b) x = if x = a then b else Memory.read m x := by
  induction m generalizing lo with
  | nil => exact Memory.read_cons (lo := a + 1) rfl (by omega)
  | cons c m ih =>
    obtain ⟨k, v⟩ := c
    have hm' := hm
    simp only [Memory.wfFrom, Bool.and_eq_true, decide_eq_true_eq] at hm
    obtain ⟨⟨⟨h1, h2⟩, h3⟩, h4⟩ := hm
    simp only [Memory.write]
    split
    · refine Memory.read_cons (lo := k) ?_ (by omega)
      simp only [Memory.wfFrom, Bool.and_eq_true, decide_eq_true_eq]
      exact ⟨⟨⟨Nat.le_refl k, h2⟩, h3⟩, h4⟩
    · split
      · subst_vars
        rw [Memory.read_cons h4 (by omega)]
        simp only [Memory.read]
        split <;> rfl
      · simp only [Memory.read, ih h4]
        split <;> split <;> first | rfl | omega

theorem Memory.read_write {a x : Nat} {b : Byte} {m : Memory} (hm : Memory.wf m = true) :
    Memory.read (Memory.write m a b) x = if x = a then b else Memory.read m x := Memory.read_write_from hm

/-- Writing what an unlisted address reads as lists nothing. -/
theorem Memory.write_unlisted_nil (a : Nat) : Memory.write [] a Memory.unlisted = [] := rfl

/-- The memory of the reset state is canonical. -/
theorem Memory.reset_wf : Memory.wf State.reset.mem = true := rfl

end Sys2Proof.Machine
end

