-- ==== Sys2Proof/Laws/Next.lean ====
section
/-! SUPPORT. Everything a NEXT can do in a decoding state whose run is not broken: the rows of 41_next R127 and
42_run_header R147, said once. -/

namespace Sys2Proof.Machine

/-- The bytes of `m` reads made after `n` header bytes. -/
def State.bytesAfterHeader (s : State) (n m : Nat) : List Byte :=
  (List.range m).map fun j => s.busByte (s.position.toNat + n + j) (n + j)

@[simp] theorem State.bytesAfterHeader_length (s : State) (n m : Nat) : (s.bytesAfterHeader n m).length = m := by
  simp [State.bytesAfterHeader]

/-- The states one NEXT can lead to from `s`. -/
inductive NextOutcome (s : State) : State → Prop where
  | headerTruncated (n : Nat) (hr : s.runState = .needsHeader) (e : decodeVarint s.headerBytes = .truncated n) :
      NextOutcome s ((s.noteReads s.position.toNat n).raise .truncated)
  | headerMalformed (n : Nat) (hr : s.runState = .needsHeader) (e : decodeVarint s.headerBytes = .malformed n) :
      NextOutcome s ((s.noteReads s.position.toNat n).raise .malformedVarint)
  | headerEmpty (h : Word) (n : Nat) (hr : s.runState = .needsHeader) (e : decodeVarint s.headerBytes = .value h n)
      (hz : h.toNat / 2 = 0) : NextOutcome s ((s.afterHeader n).raise .emptyRun)
  | rleShort (h : Word) (n : Nat) (hr : s.runState = .needsHeader) (e : decodeVarint s.headerBytes = .value h n)
      (hz : h.toNat / 2 ≠ 0) (ht : h.toNat % 2 = 0)
      (hf : s.bufLen.toNat < s.position.toNat + n + s.byteWidth.toNat) :
      NextOutcome s ((s.afterHeader n).raise .truncated)
  | rleStart (h : Word) (n : Nat) (hr : s.runState = .needsHeader) (e : decodeVarint s.headerBytes = .value h n)
      (hz : h.toNat / 2 ≠ 0) (ht : h.toNat % 2 = 0)
      (hf : s.position.toNat + n + s.byteWidth.toNat ≤ s.bufLen.toNat) :
      NextOutcome s (State.respond 0 (rleValueOf (s.bytesAfterHeader n s.byteWidth.toNat))
        { s.noteReads s.position.toNat (n + s.byteWidth.toNat) with
          position := BitVec.ofNat 32 (s.position.toNat + n + s.byteWidth.toNat)
          rleValue := rleValueOf (s.bytesAfterHeader n s.byteWidth.toNat)
          rleRemaining := BitVec.ofNat 32 (h.toNat / 2 - 1)
          runState := if h.toNat / 2 = 1 then .needsHeader else .inRle })
  | bitpackedShort (h : Word) (n : Nat) (hr : s.runState = .needsHeader)
      (e : decodeVarint s.headerBytes = .value h n) (hz : h.toNat / 2 ≠ 0) (ht : h.toNat % 2 = 1)
      (hf : s.bufLen.toNat < s.position.toNat + n + s.bitWidth.toNat) :
      NextOutcome s (State.raise .truncated { s.afterHeader n with
        bpGroupsRemaining := BitVec.ofNat 32 (h.toNat / 2), bpGroupPos := 0, runState := .inBitpacked })
  | bitpackedStart (h : Word) (n : Nat) (hr : s.runState = .needsHeader)
      (e : decodeVarint s.headerBytes = .value h n) (hz : h.toNat / 2 ≠ 0) (ht : h.toNat % 2 = 1)
      (hf : s.position.toNat + n + s.bitWidth.toNat ≤ s.bufLen.toNat) :
      NextOutcome s (State.respond 0 (unpackLane s.bitWidth.toNat (s.bytesAfterHeader n s.bitWidth.toNat) 0)
        { s.noteReads s.position.toNat (n + s.bitWidth.toNat) with
          position := BitVec.ofNat 32 (s.position.toNat + n + s.bitWidth.toNat)
          bpGroup := unpack s.bitWidth.toNat (s.bytesAfterHeader n s.bitWidth.toNat)
          bpGroupsRemaining := BitVec.ofNat 32 (h.toNat / 2 - 1)
          bpGroupPos := 1
          runState := .inBitpacked })
  | rle (hr : s.runState = .inRle) (h0 : s.rleRemaining ≠ 0) :
      NextOutcome s (State.respond 0 s.rleValue
        { s with
          rleRemaining := s.rleRemaining - 1
          runState := if s.rleRemaining = 1 then .needsHeader else .inRle })
  | lane (hr : s.runState = .inBitpacked) (hp : s.bpGroupPos ≠ 0) :
      NextOutcome s (State.respond 0 (s.lane s.bpGroupPos)
        { s with
          bpGroupPos := s.bpGroupPos + 1
          runState := if s.bpGroupPos = 7 ∧ s.bpGroupsRemaining = 0 then .needsHeader else .inBitpacked })
  | group (hr : s.runState = .inBitpacked) (hp : s.bpGroupPos = 0) (hg : s.bpGroupsRemaining ≠ 0)
      (hf : s.position.toNat + s.bitWidth.toNat ≤ s.bufLen.toNat) :
      NextOutcome s
        (State.respond 0 (unpackLane s.bitWidth.toNat (s.readBytes s.position.toNat s.bitWidth.toNat) 0)
          { s.noteReads s.position.toNat s.bitWidth.toNat with
            bpGroup := unpack s.bitWidth.toNat (s.readBytes s.position.toNat s.bitWidth.toNat)
            position := BitVec.ofNat 32 (s.position.toNat + s.bitWidth.toNat)
            bpGroupsRemaining := s.bpGroupsRemaining - 1
            bpGroupPos := 1
            runState := .inBitpacked })
  | groupShort (hr : s.runState = .inBitpacked) (hp : s.bpGroupPos = 0) (hg : s.bpGroupsRemaining ≠ 0)
      (hf : s.bufLen.toNat < s.position.toNat + s.bitWidth.toNat) : NextOutcome s (s.raise .truncated)

/-- A count of a header is no 0 in its 32-bit register (42_run_header R146). -/
theorem ofNat_count_ne_zero {h : Word} (hz : h.toNat / 2 ≠ 0) : BitVec.ofNat 32 (h.toNat / 2) ≠ 0 := by
  have := h.isLt
  rw [Ne, ← BitVec.toNat_inj, BitVec.toNat_ofNat, Nat.mod_eq_of_lt (by omega)]
  exact hz

theorem ofNat_count_sub_one {h : Word} (hz : h.toNat / 2 ≠ 0) :
    BitVec.ofNat 32 (h.toNat / 2) - 1 = BitVec.ofNat 32 (h.toNat / 2 - 1) := by
  have := h.isLt
  apply BitVec.eq_of_toNat_eq
  rw [BitVec.toNat_sub, show BitVec.toNat (1 : Word) = 1 from rfl, BitVec.toNat_ofNat, BitVec.toNat_ofNat]
  omega

theorem ofNat_count_eq_one (h : Word) : BitVec.ofNat 32 (h.toNat / 2) = 1 ↔ h.toNat / 2 = 1 := by
  have := h.isLt
  rw [← BitVec.toNat_inj, BitVec.toNat_ofNat, Nat.mod_eq_of_lt (by omega)]
  rfl

/-- NEXT in a decoding state whose run is not broken answers one of the outcomes (41_next R127). -/
theorem exec_next_outcome {s : State} (hR : s.Ready) (hi : s.Inv) : ∃ t, exec .next s = .next t ∧ NextOutcome s t := by
  by_cases hr : s.runState = .needsHeader
  · refine ⟨_, exec_next_of_header hR hr, ?_⟩
    obtain ⟨n, e, er⟩ | ⟨n, e, er⟩ | ⟨h, n, e, hz, er⟩ | ⟨h, n, e, hz, ht, hf, er⟩ | ⟨h, n, e, hz, ht, hf, er⟩ |
      ⟨h, n, e, hz, ht, er⟩ := s.readRunHeader_cases <;> rw [er, Attempt.finish]
    · exact .headerTruncated n hr e
    · exact .headerMalformed n hr e
    · exact .headerEmpty h n hr e hz
    · exact .rleShort h n hr e hz ht hf
    · rw [State.serve_of_rle rfl (ofNat_count_ne_zero hz)]
      have out := NextOutcome.rleStart h n hr e hz ht hf
      simp only [ofNat_count_sub_one hz, ofNat_count_eq_one]
      exact out
    · have hpos : (s.afterHeader n).position.toNat = s.position.toNat + n := position_toNat (State.header_fits e).2.2
      by_cases hf : s.position.toNat + n + s.bitWidth.toNat ≤ s.bufLen.toNat
      · rw [State.serve_of_new_group rfl rfl (ofNat_count_ne_zero hz) (by simp only [hpos]; exact hf)]
        have out := NextOutcome.bitpackedStart h n hr e hz ht hf
        rw [← State.noteReads_noteReads] at out
        simp only [hpos, ofNat_count_sub_one hz]
        have bytes := State.readBytes_noteReads s.position.toNat n (s.position.toNat + n) s.bitWidth.toNat s
        unfold State.bytesAfterHeader at out
        rw [← bytes] at out
        exact out
      · rw [State.serve_of_short_group rfl rfl (ofNat_count_ne_zero hz)
          (by simp only [hpos]; exact Nat.not_le.mp hf)]
        exact .bitpackedShort h n hr e hz ht (by omega)
  · refine ⟨_, exec_next_of_run hR hr, ?_⟩
    have live : s.runState = .inRle ∧ s.rleRemaining ≠ 0 ∨
        s.runState = .inBitpacked ∧ (s.bpGroupsRemaining ≠ 0 ∨ s.bpGroupPos ≠ 0) := by
      have h3 := hi.noEncoding3.2
      cases e : s.runState with
      | needsHeader => exact absurd e hr
      | inRle => exact .inl ⟨rfl, hi.inRle e⟩
      | inBitpacked => exact .inr ⟨rfl, hi.inBitpacked e⟩
      | encoding3 => exact absurd e h3
    obtain ⟨h, er⟩ | ⟨h, hp, er⟩ | ⟨h, hp, hg, hf, er⟩ | ⟨h, hp, hg, hf, er⟩ := State.serve_cases live <;> rw [er]
    · exact .rle h (hi.inRle h)
    · exact .lane h hp
    · exact .group h hp hg hf
    · exact .groupShort h hp hg hf

end Sys2Proof.Machine
end

