-- ==== Sys2Proof/Laws/PerInstr.lean ====
section
/-! SUPPORT. What holds of every instruction as syntax: its word meets its row of spec/opcode_table.json. -/

namespace Sys2Proof.Laws.TableRow

open Sys2Proof

/-- The bits the row's "mask" covers have the row's "match" (30_encoding R84): two bits of a command word, one bit of
a header word; and the bits above its format are 0 (30_encoding R73, R80). -/
def Statement : Instr → Prop
  | .next => tableWord .next % 4 = 0 ∧ tableWord .next < 2 ^ 66
  | .init base len => tableWord (.init base len) % 4 = 1 ∧ tableWord (.init base len) < 2 ^ 66
  | .config w => tableWord (.config w) % 4 = 2 ∧ tableWord (.config w) < 2 ^ 66
  | .rleRun count => tableWord (.rleRun count) % 2 = 0 ∧ tableWord (.rleRun count) < 2 ^ 32
  | .bitpackedRun count => tableWord (.bitpackedRun count) % 2 = 1 ∧ tableWord (.bitpackedRun count) < 2 ^ 32

/-- The low two bits of a command word are its opcode. -/
theorem cmdWord_mod (op : BitVec 2) (arg0 arg1 : Word) : (cmdWord op arg0 arg1).toNat % 4 = op.toNat := by
  rw [cmdWord, BitVec.toNat_append, Nat.shiftLeft_eq, Nat.mul_comm, ← Nat.two_pow_add_eq_or_of_lt op.isLt]
  have := op.isLt
  omega

/-- The low bit of a header word is its tag. -/
theorem headerWord_mod (tag : BitVec 1) (count : BitVec 31) : (headerWord tag count).toNat % 2 = tag.toNat := by
  rw [headerWord, BitVec.toNat_append, Nat.shiftLeft_eq, Nat.mul_comm, ← Nat.two_pow_add_eq_or_of_lt tag.isLt]
  have := tag.isLt
  omega

theorem next : Statement .next := ⟨cmdWord_mod 0 0 0, BitVec.isLt _⟩

theorem init (base len : Word) : Statement (.init base len) := ⟨cmdWord_mod 1 base len, BitVec.isLt _⟩

theorem config (w : Word) : Statement (.config w) := ⟨cmdWord_mod 2 w 0, BitVec.isLt _⟩

theorem rleRun (count : BitVec 31) : Statement (.rleRun count) := ⟨headerWord_mod 0 count, BitVec.isLt _⟩

theorem bitpackedRun (count : BitVec 31) : Statement (.bitpackedRun count) :=
  ⟨headerWord_mod 1 count, BitVec.isLt _⟩

end Sys2Proof.Laws.TableRow
end

