-- ==== Sys2Proof/Laws/Port.lean ====
section
/-! SUPPORT. What a step can do: answer the due command, or let the host move. -/

namespace Sys2Proof.Machine

/-- Every state either answers a command in its next step or does not. -/
theorem State.due_or_notDue (s : State) : (∃ w, s.Due w) ∨ s.NotDue := by
  unfold State.Due State.NotDue
  cases h : s.pending with
  | none => exact .inr (by simp)
  | some p =>
    obtain ⟨w, n⟩ := p
    cases n with
    | zero => exact .inl ⟨w, rfl⟩
    | succ n => exact .inr (by rintro p ⟨⟩; simp)

theorem State.Due.not_notDue {s : State} {w : BitVec 66} (h : s.Due w) : ¬ s.NotDue := fun hn => hn _ h rfl

/-- The step of a due command (70_reset_and_hazards R247). -/
theorem step_of_due {s : State} {w : BitVec 66} (h : s.Due w) : step s = runCommand w s.answering := by
  simp only [step, State.advance, show s.pending = some ⟨w, 0⟩ from h]

/-- A step that answers a command touches nothing that only the host writes. -/
theorem step_environment_of_due {s t : State} {w : BitVec 66} (h : s.Due w) (hs : step s = .next t) :
    s.answering.SameEnvironment t := runCommand_environment (step_of_due h ▸ hs)

/-- The state a step without a due command leaves to the host: the wait is one shorter and no response stands. -/
def State.ticked (s : State) : State :=
  { s with pending := s.pending.map fun p => ⟨p.word, p.wait - 1⟩, rspValid := false }

theorem step_of_notDue {s : State} (h : s.NotDue) : step s = .next s.ticked.hostTurn := by
  unfold State.NotDue at h
  cases e : s.pending with
  | none => simp [step, State.advance, State.quiet, State.ticked, e]
  | some p =>
    obtain ⟨w, n⟩ := p
    have hn := h _ e
    cases n with
    | zero => exact absurd rfl hn
    | succ n => simp [step, State.advance, State.quiet, State.ticked, e]

/-- The commands, and the reserved opcode, by their opcode (30_encoding R74, R76). -/
theorem runCommand_next {w : BitVec 66} (h : cmdOp w = 0) (s : State) : runCommand w s = exec .next s := by
  simp only [runCommand, decodeCmd_next h]

theorem runCommand_init {w : BitVec 66} (h : cmdOp w = 1) (s : State) :
    runCommand w s = exec (.init (cmdArg0 w) (cmdArg1 w)) s := by simp only [runCommand, decodeCmd_init h]

theorem runCommand_config {w : BitVec 66} (h : cmdOp w = 2) (s : State) :
    runCommand w s = exec (.config (cmdArg0 w)) s := by simp only [runCommand, decodeCmd_config h]

theorem runCommand_reserved {w : BitVec 66} (h : cmdOp w = 3) (s : State) : runCommand w s = execReserved s := by
  simp only [runCommand, decodeCmd_reserved h]

/-- Every command word is the prologue and a body. -/
theorem runCommand_eq_prologue (w : BitVec 66) :
    ∃ body : State → State, ∀ s, runCommand w s = .next (s.prologue body) := by
  obtain h | h | h | h := cmdOp_cases w
  · exact ⟨_, fun s => by rw [runCommand_next h]; rfl⟩
  · exact ⟨_, fun s => by rw [runCommand_init h]; rfl⟩
  · exact ⟨_, fun s => by rw [runCommand_config h]; rfl⟩
  · exact ⟨_, fun s => by rw [runCommand_reserved h]; rfl⟩

/-- The states one command word can lead to from a state of the invariant (60_exceptions R209). -/
inductive CommandOutcome (w : BitVec 66) (s : State) : State → Prop where
  | fatal (hc : s.cfgState = .fatal) : CommandOutcome w s (s.respond s.errCode 0)
  | unconfigured (hc : s.cfgState = .unconfigured) (hop : cmdOp w ≠ 2) : CommandOutcome w s s.respondIllegal
  | reserved (hc : s.cfgState = .configured) (hop : cmdOp w = 3) : CommandOutcome w s s.respondIllegal
  | initRefused (hc : s.cfgState = .configured) (hop : cmdOp w = 1)
      (hw : 2 ^ 32 < (cmdArg0 w).toNat + (cmdArg1 w).toNat) : CommandOutcome w s s.respondIllegal
  | init (hc : s.cfgState = .configured) (hop : cmdOp w = 1)
      (hw : (cmdArg0 w).toNat + (cmdArg1 w).toNat ≤ 2 ^ 32) :
      CommandOutcome w s (State.respond 0 0 { s.restart with bufBase := cmdArg0 w, bufLen := cmdArg1 w })
  | configIllegal (hc : s.cfgState = .unconfigured ∨ s.cfgState = .configured) (hop : cmdOp w = 2)
      (hw : ¬ (1 ≤ (cmdArg0 w).toNat ∧ (cmdArg0 w).toNat ≤ 32)) :
      CommandOutcome w s (s.raise .invalidConfiguration)
  | config (hc : s.cfgState = .unconfigured ∨ s.cfgState = .configured) (hop : cmdOp w = 2)
      (h1 : 1 ≤ (cmdArg0 w).toNat) (h2 : (cmdArg0 w).toNat ≤ 32) :
      CommandOutcome w s (State.respond 0 0
        { s.restart with
          bitWidth := (cmdArg0 w).setWidth 6, byteWidth := byteWidthOf (cmdArg0 w).toNat, bufBase := 0, bufLen := 0,
          cfgState := .configured })
  | latched (hc : s.cfgState = .configured) (hop : cmdOp w = 0) (he : s.errCode ≠ 0) :
      CommandOutcome w s (s.respond s.errCode 0)
  | next (t : State) (hR : s.Ready) (hop : cmdOp w = 0) (ho : NextOutcome s t) : CommandOutcome w s t

/-- A command word run in a state of the invariant answers one of the outcomes. -/
theorem runCommand_outcome {s : State} (hi : s.Inv) (w : BitVec 66) :
    ∃ t, runCommand w s = .next t ∧ CommandOutcome w s t := by
  cases hc : s.cfgState with
  | encoding3 => exact absurd hc hi.noEncoding3.1
  | fatal =>
    obtain ⟨body, hb⟩ := runCommand_eq_prologue w
    exact ⟨_, by rw [hb, State.prologue_of_fatal hc], .fatal hc⟩
  | unconfigured =>
    obtain h | h | h | h := cmdOp_cases w
    · refine ⟨s.respondIllegal, ?_, .unconfigured hc (by rw [h]; decide)⟩
      rw [runCommand_next h, exec, execNext, State.prologue_of_unconfigured hc, State.nextBody, if_pos hc]
    · refine ⟨s.respondIllegal, ?_, .unconfigured hc (by rw [h]; decide)⟩
      rw [runCommand_init h, exec, execInit, State.prologue_of_unconfigured hc, State.initBody_of_unconfigured hc]
    · by_cases hw : 1 ≤ (cmdArg0 w).toNat ∧ (cmdArg0 w).toNat ≤ 32
      · refine ⟨_, ?_, .config (.inl hc) h hw.1 hw.2⟩
        rw [runCommand_config h, exec, execConfig, State.prologue_of_unconfigured hc,
          State.configBody_of_legal hw.1 hw.2]
        rfl
      · refine ⟨_, ?_, .configIllegal (.inl hc) h hw⟩
        rw [runCommand_config h, exec, execConfig, State.prologue_of_unconfigured hc, State.configBody_of_illegal hw]
    · refine ⟨s.respondIllegal, ?_, .unconfigured hc (by rw [h]; decide)⟩
      rw [runCommand_reserved h, execReserved, State.prologue_of_unconfigured hc]
  | configured =>
    obtain h | h | h | h := cmdOp_cases w
    · by_cases he : s.errCode = 0
      · obtain ⟨t, ht, ho⟩ := exec_next_outcome ⟨hc, he⟩ hi
        exact ⟨t, by rw [runCommand_next h, ht], .next t ⟨hc, he⟩ h ho⟩
      · refine ⟨_, ?_, .latched hc h he⟩
        rw [runCommand_next h, exec, execNext, State.prologue_of_configured hc, State.nextBody,
          if_neg (by rw [hc]; decide), if_pos he]
    · by_cases hw : (cmdArg0 w).toNat + (cmdArg1 w).toNat ≤ 2 ^ 32
      · refine ⟨_, ?_, .init hc h hw⟩
        rw [runCommand_init h, exec, execInit, State.prologue_of_configured hc, State.initBody_of_legal hc hw]
        rfl
      · refine ⟨_, ?_, .initRefused hc h (by omega)⟩
        rw [runCommand_init h, exec, execInit, State.prologue_of_configured hc,
          State.initBody_of_overflow (by omega)]
    · by_cases hw : 1 ≤ (cmdArg0 w).toNat ∧ (cmdArg0 w).toNat ≤ 32
      · refine ⟨_, ?_, .config (.inr hc) h hw.1 hw.2⟩
        rw [runCommand_config h, exec, execConfig, State.prologue_of_configured hc,
          State.configBody_of_legal hw.1 hw.2]
        rfl
      · refine ⟨_, ?_, .configIllegal (.inr hc) h hw⟩
        rw [runCommand_config h, exec, execConfig, State.prologue_of_configured hc, State.configBody_of_illegal hw]
    · refine ⟨_, ?_, .reserved hc h⟩
      rw [runCommand_reserved h, execReserved, State.prologue_of_configured hc]

/-- The state a due command runs in keeps the invariant. -/
theorem State.Inv.answering {s : State} (h : s.Inv) : s.answering.Inv := { h with }

/-- Everything one move of the host can do (20_memory R63). -/
theorem State.hostTurn_cases (s : State) :
    s.hostTurn = s ∨ (∃ m rest, s.host = m :: rest ∧ s.hostTurn = { s with host := rest }) ∨
      (∃ w l rest, s.cmdReady = true ∧ (s.host = .command w l :: rest ∨ s.host = .commandNow w l :: rest) ∧
        s.hostTurn = State.issue w l { s with host := rest }) ∨
      (∃ sel rest, s.host = .statusRead sel :: rest ∧ s.hostTurn = { s with host := rest, statSel := sel }) ∨
      (∃ a b rest, s.host = .writeByte a b :: rest ∧ s.hostTurn = State.hostWrite a b { s with host := rest }) ∨
      (∃ rest, s.host = .reset :: rest ∧ s.hostTurn = State.resetBlock { s with host := rest }) := by
  unfold State.hostTurn
  cases h : s.host with
  | nil => exact .inl rfl
  | cons m rest =>
    cases m with
    | command w l =>
      by_cases hr : s.cmdReady = true
      · exact .inr (.inr (.inl ⟨w, l, rest, hr, .inl rfl, by simp [hr]⟩))
      · exact .inl (by simp [hr])
    | commandNow w l =>
      by_cases hr : s.cmdReady = true
      · exact .inr (.inr (.inl ⟨w, l, rest, hr, .inr rfl, by simp [hr]⟩))
      · exact .inr (.inl ⟨_, rest, rfl, by simp [hr]⟩)
    | statusRead sel => exact .inr (.inr (.inr (.inl ⟨sel, rest, rfl, rfl⟩)))
    | writeByte a b => exact .inr (.inr (.inr (.inr (.inl ⟨a, b, rest, rfl, rfl⟩))))
    | reset => exact .inr (.inr (.inr (.inr (.inr ⟨rest, rfl, rfl⟩))))

@[simp] theorem State.ticked_host (s : State) : s.ticked.host = s.host := rfl

@[simp] theorem State.ticked_mem (s : State) : s.ticked.mem = s.mem := rfl

/-- No move of the host but reset writes a register (10_state R21, R34). -/
theorem State.hostTurn_sameRegisters (s : State) :
    s.SameRegisters s.hostTurn ∨ ∃ rest, s.host = .reset :: rest := by
  obtain h | ⟨m, rest, -, h⟩ | ⟨w, l, rest, -, -, h⟩ | ⟨sel, rest, -, h⟩ | ⟨a, b, rest, -, h⟩ | ⟨rest, hh, -⟩ :=
    s.hostTurn_cases
  · rw [h]; exact .inl (by simp [State.SameRegisters])
  · rw [h]; exact .inl (by simp [State.SameRegisters])
  · rw [h]; exact .inl (by simp [State.SameRegisters])
  · rw [h]; exact .inl (by simp [State.SameRegisters])
  · rw [h]; exact .inl (by simp [State.SameRegisters])
  · exact .inr ⟨rest, hh⟩

end Sys2Proof.Machine
end

