-- ==== Sys2Proof/Tests/Slice0.lean ====
section
/-! SUPPORT. Tests with expected results from spec/ (the worked words and rows named at each), and for each statement
with hypotheses a witness that meets them, clause by clause at boundary values. -/

namespace Sys2Proof.Tests

open Sys2Proof Sys2Proof.Machine

/-! ## Small states -/

/-- A block configured for width `w` with `bytes` bound as its buffer at 0x100. -/
def demo (w : Nat) (bytes : List Byte) : State :=
  { State.reset with
    cfgState := .configured
    bitWidth := BitVec.ofNat 6 w
    byteWidth := byteWidthOf w
    bufBase := 0x100
    bufLen := BitVec.ofNat 32 bytes.length
    mem := Memory.writeBytes [] 0x100 bytes }

/-- The same block inside an RLE run of 9s with `r` values left. -/
def inRun (r : Word) : State := { demo 8 [] with runState := .inRle, rleRemaining := r, rleValue := 9 }

/-- A block of width 3 inside a bit-packed run, at lane `p` of the lanes 0 to 7 with `g` groups to come. -/
def inGroup (p : BitVec 3) (g : Word) (bytes : List Byte) : State :=
  { demo 3 bytes with
    runState := .inBitpacked, bpGroupPos := p, bpGroupsRemaining := g, bpGroup := #v[0, 1, 2, 3, 4, 5, 6, 7] }

/-- In FATAL after a CONFIG with an illegal width. -/
def fatal : State := { demo 8 [] with cfgState := .fatal, errCode := 4 }

/-- The command word `w` is due. -/
def due (w : BitVec 66) (s : State) : State := { s with pending := some ⟨w, 0⟩ }

/-- What a view shows of the next state. -/
def seen {α : Type} (f : State → α) : Host.Outcome State Fault Refusal → Option α
  | .next t => some (f t)
  | .fault _ => none
  | .refused _ => none

/-- The response and `position`. -/
def answer (t : State) : BitVec 3 × Word × Word := (t.rspStatus, t.rspValue, t.position)

/-- The invariant as a Bool. -/
def checksInv (s : State) : Bool :=
  decide ((s.position.toNat ≤ s.bufLen.toNat ∧ s.bufBase.toNat + s.bufLen.toNat ≤ 2 ^ 32) ∧
    (s.cfgState = .unconfigured →
      s.bitWidth = 0 ∧ s.byteWidth = 0 ∧ s.bufLen = 0 ∧ s.position = 0 ∧ s.runState = .needsHeader) ∧
    (s.cfgState = .configured →
      1 ≤ s.bitWidth.toNat ∧ s.bitWidth.toNat ≤ 32 ∧ s.byteWidth.toNat = (s.bitWidth.toNat + 7) / 8) ∧
    (s.runState = .inRle → s.rleRemaining ≠ 0) ∧
    (s.runState = .inBitpacked → s.bpGroupsRemaining ≠ 0 ∨ s.bpGroupPos ≠ 0) ∧
    (s.runState = .needsHeader → s.bpGroupPos = 0) ∧ (s.runState = .inRle → s.bpGroupPos = 0)) &&
  decide ((s.cfgState ≠ .encoding3 ∧ s.runState ≠ .encoding3) ∧
    (s.rleRemaining.toNat < 2 ^ 31 ∧ s.bpGroupsRemaining.toNat < 2 ^ 31) ∧
    ((s.cfgState = .unconfigured → s.errCode = 0) ∧ (s.cfgState = .configured → s.errCode.toNat ≤ 3) ∧
      (s.cfgState = .fatal → s.errCode = 4 ∨ s.errCode = 5)) ∧
    (s.cfgState = .configured →
      s.rleValue.toNat < 2 ^ (8 * s.byteWidth.toNat) ∧
        ∀ k : Fin 8, (s.lane (BitVec.ofFin k)).toNat < 2 ^ s.bitWidth.toNat) ∧
    s.rspStatus ≠ 7 ∧ Memory.wf s.mem = true)

theorem inv_of_checks {s : State} (h : checksInv s = true) : s.Inv := by
  simp only [checksInv, Bool.and_eq_true, decide_eq_true_eq] at h
  obtain ⟨⟨⟨h1, h2⟩, h3, h4, h5, h6, h7, h8⟩, h9, h10, h11, h12, h13, h14⟩ := h
  exact ⟨h1, h2, h3, h4, h5, h6, h7, h8, h9, h10, h11, fun hc => ⟨(h12 hc).1, fun k => (h12 hc).2 k.toFin⟩, h13, h14⟩

/-! ## WellFormed -/

/-- 30_encoding R80, R83: a count of 0 is no run, and 1 and the largest count are. -/
theorem test_wellFormed_counts :
    (Instr.rleRun 0).wellFormed = false ∧ (Instr.bitpackedRun 0).wellFormed = false ∧
      (Instr.rleRun 1).wellFormed = true ∧ (Instr.bitpackedRun 0x7FFFFFFF).wellFormed = true := by decide

/-! ## Decoding (words of 95_test_vectors and 30_encoding) -/

/-- 95_test_vectors part 2 and P2 to P5. -/
theorem test_decode_commands :
    decodeCmd 0x00000000000000000 = .ok .next ∧
      decodeCmd 0x00000009800001401 = .ok (.init 0x500 38) ∧
      decodeCmd 0x00000001000000001 = .ok (.init 0 4) ∧
      decodeCmd 0x00000000000000086 = .ok (.config 33) ∧
      decodeCmd 0x000000003FFFFFFFE = .ok (.config 0xFFFFFFFF) ∧
      decodeCmd 0x00000000000000003 = .error .reservedOpcode := by decide

/-- 95_test_vectors, the table "Varint and header". -/
theorem test_decode_headers :
    decodeStream [0xAC, 0x02, 0x07] = .ok (.rleRun 150, [0x07]) ∧
      decodeStream [0x88, 0x00, 0x07] = .ok (.rleRun 4, [0x07]) ∧
      decodeStream [0xFE, 0xFF, 0xFF, 0xFF, 0x0F, 0x09] = .ok (.rleRun 0x7FFFFFFF, [0x09]) ∧
      decodeStream [0xFF, 0xFF, 0xFF, 0xFF, 0x0F] = .ok (.bitpackedRun 0x7FFFFFFF, []) ∧
      decodeStream [0x80, 0x80, 0x80, 0x80] = .error .truncatedVarint ∧
      decodeStream [0x80, 0x80, 0x80, 0x80, 0x80] = .error .malformedVarint ∧
      decodeStream [0xFF, 0xFF, 0xFF, 0xFF, 0x1F] = .error .malformedVarint := by decide

/-- The worked rows of 43_bitpacked_group R168: formats GROUP at W = 3, 1, 2, 4, 5, 7 and 9. -/
theorem test_decode_groups :
    unpack 3 [0x88, 0xC6, 0xFA] = #v[0, 1, 2, 3, 4, 5, 6, 7] ∧
      unpack 1 [0xA5] = #v[1, 0, 1, 0, 0, 1, 0, 1] ∧
      unpack 2 [0xE4, 0x1B] = #v[0, 1, 2, 3, 3, 2, 1, 0] ∧
      unpack 4 [0x21, 0x43, 0x65, 0x87] = #v[1, 2, 3, 4, 5, 6, 7, 8] ∧
      unpack 5 [0x20, 0x88, 0x41, 0x8A, 0x39] = #v[0, 1, 2, 3, 4, 5, 6, 7] ∧
      unpack 7 (List.replicate 7 0xFF) = #v[127, 127, 127, 127, 127, 127, 127, 127] ∧
      unpack 9 [0x00, 0x02, 0x08, 0x18, 0x40, 0xA0, 0x80, 0x81, 0x03] = #v[0, 1, 2, 3, 4, 5, 6, 7] := by decide +kernel

/-- The worked rows of 44_rle_value R185: format RLEVAL at each byte width. -/
theorem test_decode_rle_values :
    rleValueOf [0xFF] = 255 ∧ rleValueOf [0x34, 0x12] = 0x1234 ∧ rleValueOf [0x56, 0x34, 0x12] = 0x123456 ∧
      rleValueOf [0xFF, 0xFF, 0xFF, 0x7F] = 0x7FFFFFFF ∧ rleValueOf [0x00, 0x00, 0x00, 0x80] = 0x80000000 := by decide

/-- 30_encoding R84: each row of the table, by its width and match. -/
theorem test_decode_table_rows :
    decodeTableWord 66 0 = some .next ∧ decodeTableWord 66 1 = some (.init 0 0) ∧
      decodeTableWord 66 2 = some (.config 0) ∧ decodeTableWord 66 3 = none ∧
      decodeTableWord 32 8 = some (.rleRun 4) ∧ decodeTableWord 32 5 = some (.bitpackedRun 2) := by decide

/-! ## One step of each instruction -/

/-- 95_test_vectors, "NEXT transitions": a new group at W = 3 gives lane 0, p = 1, groups - 1, pos + 3. -/
theorem test_next_new_group :
    seen (fun t => (answer t, t.bpGroupPos, t.bpGroupsRemaining, t.bpGroup))
        (exec .next (inGroup 0 1 [0x88, 0xC6, 0xFA])) =
      some ((0, 0, 3), 1, 0, #v[0, 1, 2, 3, 4, 5, 6, 7]) := by decide

/-- 95_test_vectors, "Varint and header": the largest RLE count. -/
theorem test_next_largest_rle_count :
    seen (fun t => (answer t, t.runState, t.rleRemaining))
        (exec .next (demo 8 [0xFE, 0xFF, 0xFF, 0xFF, 0x0F, 0x09])) =
      some ((0, 9, 6), .inRle, 0x7FFFFFFE) := by decide

/-- 95_test_vectors, INIT: a window that ends at the top byte, from W = 8 with an error latched. -/
theorem test_init_top_byte :
    seen (fun t => (t.rspStatus, t.bufBase, t.bufLen, t.errCode)) (exec (.init 0xFFFFFFFF 1) { demo 8 [5] with errCode := 2 }) =
      some (0, 0xFFFFFFFF, 1, 0) := by decide

/-- 95_test_vectors, INIT: one byte past the top. -/
theorem test_init_past_top :
    seen (fun t => (t.rspStatus, t.bufBase, t.bufLen)) (exec (.init 0xFFFFFFFF 2) (demo 8 [5])) =
      some (6, 0x100, 1) := by decide

/-- 95_test_vectors, CONFIG: W = 25 needs 4 bytes. -/
theorem test_config_width_25 :
    seen (fun t => (t.rspStatus, t.bitWidth, t.byteWidth, t.cfgState)) (exec (.config 25) State.reset) =
      some (0, 25, 4, .configured) := by decide

/-- 40_config_init R100: "no high bit is dropped before the check". -/
theorem test_config_high_bits :
    seen (fun t => (t.rspStatus, t.errCode, t.cfgState, t.bitWidth)) (exec (.config 0x80000008) (demo 8 [])) =
      some (4, 4, .fatal, 8) := by decide

/-- 42_run_header R144, the example: W = 9, count 3, value bytes 0x34 0x12. -/
theorem test_rleRun_two_byte_value :
    seen (fun t => (t.rleValue, t.rleRemaining, t.position, t.runState))
        (exec (.rleRun 3) { demo 9 [0x06, 0x34, 0x12] with position := 1 }) =
      some (0x1234, 3, 3, .inRle) := by decide

/-- 44_rle_value R183: at W = 3 the value byte 0xFF gives 255. -/
theorem test_rleRun_unmasked :
    seen (fun t => t.rleValue) (exec (.rleRun 1) (demo 3 [0xFF])) = some 255 := by decide

/-- 42_run_header R145, the example: W = 3, count 2, and no group is read by the header itself. -/
theorem test_bitpackedRun_enters :
    seen (fun t => (t.bpGroupsRemaining, t.bpGroupPos, t.runState, t.position))
        (exec (.bitpackedRun 2) { demo 3 [0x05] with position := 1 }) =
      some (2, 0, .inBitpacked, 1) := by decide

/-- 42_run_header R145: a count of 0 is EmptyRun. -/
theorem test_bitpackedRun_empty :
    seen (fun t => (t.rspStatus, t.errCode, t.runState)) (exec (.bitpackedRun 0) (demo 3 [])) =
      some (2, 2, .needsHeader) := by decide

/-- 30_encoding R84: what `withFetchWord` places is what the next step runs. -/
theorem test_step_runs_placed_words :
    seen (fun t => (t.rspStatus, t.cfgState)) (step (State.reset.withFetchWord 66 0xE)) = some (0, .configured) ∧
      seen (fun t => (t.rspStatus, t.rleRemaining, t.position)) (step (State.reset.withFetchWord 32 8)) =
        some (0, 3, 2) ∧
      seen (fun t => (t.rspStatus, t.bpGroupsRemaining, t.position)) (step (State.reset.withFetchWord 32 5)) =
        some (0, 1, 9) := by decide

/-! ## Witnesses: each statement's hypotheses can be met -/

theorem witness_DecodeOfEncodeIsInstruction :
    (Instr.rleRun 1).wellFormed = true ∧ (Instr.rleRun 0x7FFFFFFF).wellFormed = true ∧
      (Instr.bitpackedRun 1).wellFormed = true ∧ (Instr.init 0xFFFFFFFF 0xFFFFFFFF).wellFormed = true ∧
      decode (encode (.rleRun 0x7FFFFFFF)) = .ok (.rleRun 0x7FFFFFFF, []) ∧
      encode (.rleRun 0x7FFFFFFF) = .stream [0xFE, 0xFF, 0xFF, 0xFF, 0x0F] := by decide

theorem witness_CommandWordAndOpcodeMap :
    decodeCmd (cmdWord 0 0xFFFFFFFF 0xFFFFFFFF) = .ok .next ∧
      decodeCmd (cmdWord 1 0xFFFFFFFF 0) = .ok (.init 0xFFFFFFFF 0) ∧
      decodeCmd (cmdWord 2 0 0xFFFFFFFF) = .ok (.config 0) ∧
      decodeCmd (cmdWord 3 0 0) = .error .reservedOpcode := by decide

theorem witness_VarintValueAndBounds :
    ([0xFF, 0xFF, 0xFF, 0xFF].length ≤ 4 ∧ (∀ b ∈ ([0xFF, 0xFF, 0xFF, 0xFF] : List Byte), 128 ≤ b.toNat)) ∧
      varintSum [0xFF, 0xFF, 0xFF, 0xFF, 0x0F] = 2 ^ 32 - 1 ∧
      decodeVarint ([0xFF, 0xFF, 0xFF, 0xFF] ++ 0x0F :: [0x09]) = .value 0xFFFFFFFF 5 ∧
      decodeVarint ([0xFF, 0xFF, 0xFF, 0xFF] ++ 0x10 :: []) = .malformed 5 ∧
      decodeVarint ([] ++ 0x7F :: []) = .value 0x7F 1 ∧
      decodeVarint ([0x80, 0x80, 0x80, 0x80, 0x80] ++ [0x00]) = .malformed 5 ∧
      decodeVarint [] = .truncated 0 ∧ decodeVarint [0x80, 0x80, 0x80, 0x80] = .truncated 4 := by decide

theorem witness_MinimalVarintReadsBack :
    decodeVarint [0x88, 0x00] = .value 8 2 ∧ (encodeVarint 8).length = 1 := by decide

theorem witness_ResetFromAnyState :
    ({ fatal with pending := some ⟨0, 1⟩, host := [.reset] } : State).ResetNext ∧
      fatal.cfgState = .fatal ∧ ∃ t, step fatal = .next t :=
  ⟨⟨by intro p hp; cases hp; decide, [], rfl⟩, rfl, _, rfl⟩

theorem witness_StatusReadHasNoSideEffect :
    ({ inRun 2 with pending := some ⟨0, 1⟩, host := [.statusRead 0x4] } : State).NotDue ∧
      seen (fun t => (t.statData, t.pending))
          (step { inRun 2 with pending := some ⟨0, 1⟩, host := [.statusRead 0x4] }) = some (2, some ⟨0, 0⟩) :=
  ⟨by intro p hp; cases hp; decide, by decide⟩

theorem witness_ConfigBuildsOrFaults :
    State.reset.cfgState = .unconfigured ∧ (inGroup 3 1 []).cfgState = .configured ∧
      seen (fun t => (t.byteWidth, t.runState)) (exec (.config 1) (inGroup 3 1 [])) = some (1, .needsHeader) ∧
      seen (fun t => (t.byteWidth, t.bitWidth)) (exec (.config 32) State.reset) = some (4, 32) ∧
      seen (fun t => (t.rspStatus, t.cfgState)) (exec (.config 0) State.reset) = some (4, .fatal) ∧
      seen (fun t => (t.rspStatus, t.bpGroupPos)) (exec (.config 33) (inGroup 3 1 [])) = some (4, 3) ∧
      decodeCmd (cmdWord 2 0 1) = .ok (.config 0) ∧ fatal.cfgState = .fatal ∧
      seen State.cfgState (step fatal) = some .fatal := by decide

theorem witness_ByteWidthIsCeilAndFixed :
    seen (fun t => t.byteWidth) (exec (.config 8) State.reset) = some 1 ∧
      seen (fun t => t.byteWidth) (exec (.config 9) State.reset) = some 2 ∧
      seen (fun t => t.byteWidth) (exec (.config 16) State.reset) = some 2 ∧
      seen (fun t => t.byteWidth) (exec (.config 17) State.reset) = some 3 ∧
      seen (fun t => t.byteWidth) (exec (.config 24) State.reset) = some 3 ∧
      seen (fun t => t.byteWidth) (exec (.config 25) State.reset) = some 4 ∧
      (due 0 (inRun 1)).Due 0 ∧ ∃ t, step (due 0 (inRun 1)) = .next t :=
  ⟨rfl, rfl, rfl, rfl, rfl, rfl, rfl, _, rfl⟩

theorem witness_InitBindsOrRefuses :
    (inGroup 3 1 []).cfgState = .configured ∧ (0xFFFFFFFF : Word).toNat + (1 : Word).toNat ≤ 2 ^ 32 ∧
      2 ^ 32 < (0xFFFFFFFF : Word).toNat + (2 : Word).toNat ∧ State.reset.cfgState = .unconfigured ∧
      seen (fun t => (t.rspStatus, t.runState, t.bpGroupPos)) (exec (.init 0xFFFFFFFF 1) (inGroup 3 1 [])) =
        some (0, .needsHeader, 0) ∧
      seen (fun t => (t.rspStatus, t.bpGroupPos)) (exec (.init 0xFFFFFFFF 2) (inGroup 3 1 [])) = some (6, 3) ∧
      seen (fun t => (t.rspStatus, t.bufLen)) (exec (.init 0 4) State.reset) = some (6, 0) ∧
      seen (fun t => seen answer (exec .next t)) (exec (.init 0xFFFFFFFF 0) (inRun 1)) = some (some (1, 0, 0)) := by
  decide

theorem witness_UnconfiguredAcceptsOnlyConfig :
    State.reset.cfgState = .unconfigured ∧ seen State.rspStatus (exec .next State.reset) = some 6 ∧
      seen State.cfgState (exec (.config 1) State.reset) = some .configured := by decide

theorem witness_ReservedOpcodeRefused :
    ((due 3 State.reset).Due 3 ∧ cmdOp 3 = 3) ∧
      seen State.rspStatus (step (due 3 State.reset)) = some 6 ∧
      seen State.rspStatus (step (due 3 (inRun 1))) = some 6 ∧
      seen State.rspStatus (step (due 3 fatal)) = some 4 := ⟨⟨rfl, by decide⟩, by decide⟩

theorem witness_FatalAnswersLatchedCode :
    (due 0x22 fatal).Due 0x22 ∧ (due 0x22 fatal).cfgState = .fatal ∧ fatal.Inv ∧
      seen (fun t => (t.rspStatus, t.cfgState)) (step (due 0x22 fatal)) = some (4, .fatal) :=
  ⟨rfl, rfl, inv_of_checks (by decide), by decide⟩

theorem witness_CorruptConfigStateFaults :
    (due 3 { inRun 1 with cfgState := .encoding3 }).Due 3 ∧
      seen (fun t => (t.rspStatus, t.cfgState)) (step (due 3 { inRun 1 with cfgState := .encoding3 })) =
        some (5, .fatal) ∧
      (due 3 fatal).Due 3 ∧ fatal.cfgState = .fatal ∧ seen State.rspStatus (step (due 3 fatal)) = some 4 :=
  ⟨rfl, by decide, rfl, by decide⟩

theorem witness_ErrorLatchIsSticky :
    ({ inRun 1 with errCode := 1 } : State).cfgState = .configured ∧
      seen (fun t => (t.rspStatus, t.rleRemaining)) (exec .next { inRun 1 with errCode := 1 }) = some (1, 1) ∧
      seen State.errCode (exec (.init 0 0) { inRun 1 with errCode := 3 }) = some 0 ∧
      seen State.errCode (exec (.config 32) { inRun 1 with errCode := 3 }) = some 0 ∧
      (due 3 { inRun 1 with errCode := 3 }).Due 3 ∧
      seen (fun t => (t.rspStatus, t.errCode)) (step (due 3 { inRun 1 with errCode := 3 })) = some (6, 3) :=
  ⟨rfl, by decide, by decide, by decide, rfl, by decide⟩

/-- 60_exceptions R202 (a) to (d), R203 and R204, one state each. -/
theorem witness_NextErrorCauses :
    ((demo 8 []).Inv ∧ (demo 8 []).Ready) ∧ ((inGroup 0 1 [1, 2]).Inv ∧ (inGroup 0 1 [1, 2]).Ready) ∧
      seen State.rspStatus (exec .next (demo 8 [])) = some 1 ∧
      seen State.rspStatus (exec .next (demo 8 [0x80, 0x80, 0x80, 0x80])) = some 1 ∧
      seen State.rspStatus (exec .next (demo 9 [0x02, 0x05])) = some 1 ∧
      seen State.rspStatus (exec .next (demo 8 [0x03, 1, 2, 3, 4, 5, 6, 7])) = some 1 ∧
      seen State.rspStatus (exec .next (inGroup 0 1 [1, 2])) = some 1 ∧
      seen State.rspStatus (exec .next (demo 8 [0x01])) = some 2 ∧
      seen State.rspStatus (exec .next (demo 8 [0x80, 0x80, 0x80, 0x80, 0x80])) = some 3 ∧
      seen State.rspStatus (exec .next (demo 8 [0xFF, 0xFF, 0xFF, 0xFF, 0x10])) = some 3 :=
  ⟨⟨inv_of_checks (by decide), rfl, rfl⟩, ⟨inv_of_checks (by decide), rfl, rfl⟩, by decide⟩

theorem witness_StatusCodeSources :
    (due 0x86 (inRun 1)).Inv ∧ (inRun 1).cfgState ≠ .fatal ∧ (inRun 1).errCode = 0 ∧ (due 0x86 (inRun 1)).Due 0x86 ∧
      seen State.rspStatus (step (due 0x86 (inRun 1))) = some 4 ∧
      seen State.rspStatus (step (due (cmdWord 1 0xFFFFFFFF 2) (inRun 1))) = some 6 ∧
      seen State.rspStatus (step (due 0 State.reset)) = some 6 :=
  ⟨inv_of_checks (by decide), by decide, rfl, rfl, by decide⟩

theorem witness_ErrorResponseHasNoValue :
    (due 0 (demo 8 [])).Due 0 ∧ seen (fun t => (t.rspStatus, t.rspValue)) (step (due 0 (demo 8 []))) = some (1, 0) ∧
      seen (fun t => (t.rspStatus, t.rspValue)) (step (due 2 (inRun 1))) = some (4, 0) := ⟨rfl, by decide⟩

/-- Both ends of the count: the last value of the run and one before it. -/
theorem witness_NextServesRleValue :
    (inRun 1).Ready ∧ (inRun 1).runState = .inRle ∧ (inRun 1).rleRemaining ≠ 0 ∧
      seen (fun t => (t.rspValue, t.runState)) (exec .next (inRun 1)) = some (9, .needsHeader) ∧
      seen (fun t => (t.rspValue, t.runState)) (exec .next (inRun 2)) = some (9, .inRle) :=
  ⟨⟨rfl, rfl⟩, rfl, by decide, by decide, by decide⟩

/-- Lane 7 of the last group and of one before it, a group that just fits, and a group one byte short. -/
theorem witness_NextInBitpackedRun :
    (inGroup 7 0 []).Ready ∧
      seen (fun t => (t.rspValue, t.runState, t.bpGroupPos)) (exec .next (inGroup 7 0 [])) =
        some (7, .needsHeader, 0) ∧
      seen (fun t => (t.rspValue, t.runState)) (exec .next (inGroup 7 1 [])) = some (7, .inBitpacked) ∧
      (inGroup 0 1 [1, 2, 3]).position.toNat + (inGroup 0 1 [1, 2, 3]).bitWidth.toNat ≤
        (inGroup 0 1 [1, 2, 3]).bufLen.toNat ∧
      seen answer (exec .next (inGroup 0 1 [1, 2, 3])) = some (0, 1, 3) ∧
      seen answer (exec .next (inGroup 0 1 [1, 2])) = some (1, 0, 0) :=
  ⟨⟨rfl, rfl⟩, by decide⟩

theorem witness_NextFaultsOnBrokenState :
    ((inRun 0).Ready ∧ (inRun 0).runState = .inRle ∧ (inRun 0).rleRemaining = 0) ∧
      seen State.rspStatus (exec .next (inRun 0)) = some 5 ∧
      seen State.rspStatus (exec .next (inGroup 0 0 [1, 2, 3])) = some 5 ∧
      seen State.rspStatus (exec .next { demo 8 [] with runState := .encoding3 }) = some 5 ∧
      seen State.rspStatus (exec .next { demo 8 [] with cfgState := .encoding3 }) = some 5 :=
  ⟨⟨⟨rfl, rfl⟩, rfl, rfl⟩, by decide⟩

/-- The value ends with the buffer, for a run of one value and of two. -/
theorem witness_NextStartsRleRun :
    (demo 9 [0x02, 0x34, 0x12]).Ready ∧ (demo 9 [0x02, 0x34, 0x12]).runState = .needsHeader ∧
      decodeVarint (demo 9 [0x02, 0x34, 0x12]).headerBytes = .value 2 1 ∧ decodeHeader 2 = .rleRun 1 ∧
      0 + 1 + (demo 9 [0x02, 0x34, 0x12]).byteWidth.toNat ≤ (demo 9 [0x02, 0x34, 0x12]).bufLen.toNat ∧
      seen (fun t => (answer t, t.runState)) (exec .next (demo 9 [0x02, 0x34, 0x12])) =
        some ((0, 0x1234, 3), .needsHeader) ∧
      seen (fun t => (answer t, t.runState)) (exec .next (demo 9 [0x04, 0x34, 0x12])) =
        some ((0, 0x1234, 3), .inRle) :=
  ⟨⟨rfl, rfl⟩, rfl, by decide⟩

theorem witness_NextStartsBitpackedRun :
    (demo 3 [0x03, 0x88, 0xC6, 0xFA]).Ready ∧
      decodeVarint (demo 3 [0x03, 0x88, 0xC6, 0xFA]).headerBytes = .value 3 1 ∧ decodeHeader 3 = .bitpackedRun 1 ∧
      0 + 1 + (demo 3 [0x03, 0x88, 0xC6, 0xFA]).bitWidth.toNat ≤ (demo 3 [0x03, 0x88, 0xC6, 0xFA]).bufLen.toNat ∧
      seen (fun t => (answer t, t.bpGroupPos, t.bpGroupsRemaining)) (exec .next (demo 3 [0x03, 0x88, 0xC6, 0xFA])) =
        some ((0, 0, 4), 1, 0) :=
  ⟨⟨rfl, rfl⟩, by decide⟩

/-- 95_test_vectors E5 and E6, and the table "Varint and header". -/
theorem witness_HeaderErrorsAndTheirStates :
    (demo 8 [0x80, 0x80]).Ready ∧ decodeVarint (demo 8 [0x80, 0x80]).headerBytes = .truncated 2 ∧
      seen answer (exec .next (demo 8 [0x80, 0x80])) = some (1, 0, 0) ∧
      decodeVarint (demo 8 [0xFF, 0xFF, 0xFF, 0xFF, 0x1F]).headerBytes = .malformed 5 ∧
      seen answer (exec .next (demo 8 [0xFF, 0xFF, 0xFF, 0xFF, 0x1F])) = some (3, 0, 0) ∧
      decodeVarint (demo 8 [0x00, 0x05]).headerBytes = .value 0 1 ∧
      seen answer (exec .next (demo 8 [0x00, 0x05])) = some (2, 0, 1) ∧
      seen answer (exec .next (demo 8 [0x01])) = some (2, 0, 1) ∧
      seen answer (exec .next (demo 8 [0x02])) = some (1, 0, 1) ∧
      seen (fun t => (answer t, t.runState, t.bpGroupsRemaining)) (exec .next (demo 8 [0x03, 0xAA])) =
        some ((1, 0, 1), .inBitpacked, 1) :=
  ⟨⟨rfl, rfl⟩, by decide⟩

theorem witness_NextAtEndIsTruncated :
    (demo 8 []).Ready ∧ (demo 8 []).runState = .needsHeader ∧ (demo 8 []).position = (demo 8 []).bufLen ∧
      State.reset.cfgState = .unconfigured ∧
      seen (fun t => seen State.rspStatus (exec .next t)) (exec (.config 32) State.reset) = some (some 1) :=
  ⟨⟨rfl, rfl⟩, by decide⟩

theorem witness_NextConsumesBytes :
    ((inGroup 0 1 [1, 2, 3]).Inv ∧ (inGroup 0 1 [1, 2, 3]).Ready) ∧
      ((demo 8 [0x88, 0x00, 0x07]).Inv ∧ (demo 8 [0x88, 0x00, 0x07]).Ready) ∧
      ((inRun 1).Inv ∧ (inRun 1).Ready) ∧
      seen answer (exec .next (demo 8 [0x88, 0x00, 0x07])) = some (0, 7, 3) ∧
      seen answer (exec .next (inRun 1)) = some (0, 9, 0) ∧
      seen answer (exec .next (inGroup 1 0 [])) = some (0, 1, 0) :=
  ⟨⟨inv_of_checks (by decide), rfl, rfl⟩, ⟨inv_of_checks (by decide), rfl, rfl⟩,
    ⟨inv_of_checks (by decide), rfl, rfl⟩, by decide⟩

theorem witness_RleRunYieldsItsCount :
    (inRun 1).Ready ∧ (inRun 1).runState = .inRle ∧ (inRun 1).rleRemaining ≠ 0 ∧
      ((inRun 1).afterNexts 1).runState = .needsHeader := ⟨⟨rfl, rfl⟩, rfl, by decide, by decide⟩

theorem witness_GroupLanesServedInOrder :
    (inGroup 1 0 []).Ready ∧ (inGroup 1 0 []).bpGroupPos ≠ 0 ∧ (inGroup 1 0 []).bpGroupPos.toNat + 6 < 8 ∧
      seen State.rspValue (exec .next ((inGroup 1 0 []).afterNexts 6)) = some 7 :=
  ⟨⟨rfl, rfl⟩, by decide⟩

theorem witness_RleRunReadsValue :
    (demo 32 [1, 2, 3, 4]).position.toNat + (demo 32 [1, 2, 3, 4]).byteWidth.toNat ≤
        (demo 32 [1, 2, 3, 4]).bufLen.toNat ∧
      seen State.rleValue (exec (.rleRun 0x7FFFFFFF) (demo 32 [1, 2, 3, 4])) = some 0x04030201 ∧
      seen State.rspStatus (exec (.rleRun 0) (demo 32 [1, 2, 3, 4])) = some 2 ∧
      seen (fun t => (t.rspStatus, t.runState)) (exec (.rleRun 1) (demo 32 [1, 2, 3])) =
        some (1, .needsHeader) ∧
      (demo 32 [1, 2, 3, 4]).cfgState = .configured ∧ (demo 32 [1, 2, 3, 4]).errCode = 0 ∧
      seen (fun u => seen (fun t => (t.rspValue, t.runState)) (exec .next u)) (exec (.rleRun 1) (demo 32 [1, 2, 3, 4])) =
        some (some (0x04030201, .needsHeader)) := by decide

theorem witness_BitpackedRunEnters :
    seen State.bpGroupsRemaining (exec (.bitpackedRun 0x7FFFFFFF) (demo 32 [])) = some 0x7FFFFFFF ∧
      seen State.rspStatus (exec (.bitpackedRun 0) (demo 32 [])) = some 2 ∧
      (demo 1 [0xA5]).cfgState = .configured ∧ (demo 1 [0xA5]).errCode = 0 ∧
      seen (fun u => seen answer (exec .next u)) (exec (.bitpackedRun 1) (demo 1 [0xA5])) = some (some (0, 1, 1)) := by
  decide

theorem witness_UnpackBitByBit :
    ([0x00, 0x00, 0x80] : List Byte).length = 3 ∧
      ((unpack 3 [0x00, 0x00, 0x80]).get 7).getLsbD 2 = true ∧
      ((unpack 32 (List.replicate 32 0xFF)).get 7).getLsbD 31 = true ∧
      ((unpack 1 [0xFE]).get 0).getLsbD 0 = false := by decide +kernel

theorem witness_UnpackedLaneInRange :
    ((unpack 32 (List.replicate 32 0xFF)).get 7).toNat = 2 ^ 32 - 1 ∧ ((unpack 1 [0xFF]).get 7).toNat = 1 ∧
      ((unpack 0 [0xFF]).get 7).toNat = 0 := by decide +kernel

theorem witness_UnpackAlignedWidths :
    ((unpack 8 [0, 1, 2, 3, 4, 5, 6, 7]).get 7).toNat = 7 ∧
      ((unpack 16 ([0x34, 0x12] ++ List.replicate 14 0)).get 0).toNat = 0x1234 ∧
      ((unpack 24 (List.replicate 21 0 ++ [1, 2, 3])).get 7).toNat = 0x030201 ∧
      ((unpack 32 (List.replicate 28 0 ++ [0x78, 0x56, 0x34, 0x12])).get 7).toNat = 0x12345678 ∧
      ((unpack 1 [0x80]).get 7).toNat = 1 := by decide +kernel

theorem witness_UnpackOfPackIsLanes :
    (∀ k : Fin 8, ((#v[0, 1, 2, 3, 4, 5, 6, 7] : Vector Word 8).get k).toNat < 2 ^ 3) ∧
      encodeGroup 3 #v[0, 1, 2, 3, 4, 5, 6, 7] = [0x88, 0xC6, 0xFA] := by decide +kernel

theorem witness_ReadsAscendInsideWindow :
    ((due 0 (demo 3 [0x03, 0x88, 0xC6, 0xFA])).Inv ∧ (due 0 (demo 3 [0x03, 0x88, 0xC6, 0xFA])).Due 0) ∧
      seen State.memAddrs (step (due 0 (demo 3 [0x03, 0x88, 0xC6, 0xFA]))) = some [0x100, 0x101, 0x102, 0x103] ∧
      seen State.memAddrs (step (due 0 (demo 3 [0x03, 0x88, 0xC6]))) = some [0x100] ∧
      seen State.memAddrs (step (due 0 (inGroup 0 1 [0x88, 0xC6]))) = some [] :=
  ⟨⟨inv_of_checks (by decide), rfl⟩, by decide⟩

/-- Two memories that differ in the byte right after the window. -/
theorem witness_NextDependsOnWindowOnly :
    (demo 8 [0x02, 0x05]).Inv ∧ (∀ a : Word, inWindow 0x100 2 a = true →
      Memory.read (Memory.write (demo 8 [0x02, 0x05]).mem 0x102 7) a.toNat =
        Memory.read (demo 8 [0x02, 0x05]).mem a.toNat) := by
  refine ⟨inv_of_checks (by decide), fun a ha => ?_⟩
  have h : a.toNat = 0x100 ∨ a.toNat = 0x101 := by
    simp [inWindow] at ha
    omega
  rcases h with h | h <;> rw [h] <;> decide

/-- A write of the last byte of a window, and of the byte after it. -/
theorem witness_HostWriteBreaksWindow :
    ({ demo 8 [1, 2] with host := [.writeByte 0x101 9] } : State).pending = none ∧
      seen State.windowWritten (step { demo 8 [1, 2] with host := [.writeByte 0x101 9] }) = some true ∧
      seen State.windowWritten (step { demo 8 [1, 2] with host := [.writeByte 0x102 9] }) = some false ∧
      seen State.windowWritten (step { demo 8 [1, 2] with host := [.writeByte 0xFF 9] }) = some false ∧
      seen State.windowWritten (step { demo 8 [1] with windowWritten := true, host := [.command 1 0] }) =
        some false ∧
      seen State.windowWritten (step { demo 8 [1] with windowWritten := true, host := [.command 0 0] }) =
        some true ∧
      seen State.windowWritten (step { demo 8 [1] with windowWritten := true, host := [.commandNow 2 0] }) =
        some false ∧
      seen State.windowWritten (step { demo 8 [1] with windowWritten := true, host := [.reset] }) = some false ∧
      seen State.windowWritten (step { demo 8 [1] with windowWritten := true }) = some true ∧
      seen State.windowWritten (step { demo 8 [1] with windowWritten := true, host := [.statusRead 0] }) = some true := by
  decide

/-- A write while an INIT waits (the last byte of its window, the byte after it, and a byte of the window in use), an
INIT that will be refused, a CONFIG, and a NEXT. -/
theorem witness_HostWriteBreaksWindow_waiting :
    let write (word : BitVec 66) (a : Word) : State :=
      { demo 8 [1, 2] with pending := some ⟨word, 1⟩, host := [.writeByte a 9] }
    (write 0 0x101).pending = some ⟨0, 1⟩ ∧
      seen State.windowWritten (step (write (cmdWord 1 0x200 4) 0x203)) = some true ∧
      seen State.windowWritten (step (write (cmdWord 1 0x200 4) 0x204)) = some false ∧
      seen State.windowWritten (step (write (cmdWord 1 0x200 4) 0x101)) = some false ∧
      seen State.windowWritten (step (write (cmdWord 1 0xFFFFFFFF 2) 0x101)) = some true ∧
      seen State.windowWritten (step (write (cmdWord 1 0xFFFFFFFF 1) 0xFFFFFFFF)) = some true ∧
      seen State.windowWritten (step (write (cmdWord 2 8 0) 0x101)) = some false ∧
      seen State.windowWritten (step (write 0 0x101)) = some true := by decide

theorem witness_OnlyHostWritesMemory :
    Memory.wf ({ demo 8 [1] with host := [.writeByte 0xFFFFFFFF 9] } : State).mem = true ∧
      ({ demo 8 [1] with host := [.writeByte 0xFFFFFFFF 9] } : State).NotDue ∧
      ¬ (due 0 { demo 8 [1] with host := [.writeByte 0xFFFFFFFF 9] }).NotDue ∧
      seen (fun t => Memory.read t.mem 0xFFFFFFFF)
          (step (due 0 { demo 8 [1] with host := [.writeByte 0xFFFFFFFF 9] })) = some 0 ∧
      seen (fun t => Memory.read t.mem 0xFFFFFFFF) (step { demo 8 [1] with host := [.writeByte 0xFFFFFFFF 9] }) =
        some 9 :=
  ⟨by decide, (by intro p hp; cases hp), (fun h => h _ rfl rfl), by decide⟩

theorem witness_StepRunsDecodedCommand :
    (due 0xE State.reset).Due 0xE ∧ decodeCmd 0xE = .ok (.config 3) ∧
      seen State.bitWidth (step (due 0xE State.reset)) = some 3 := ⟨rfl, by decide⟩

/-- A header that raises, and one that enters a run. -/
theorem witness_NextRunsDecodedHeader :
    (demo 8 [0x00]).Ready ∧ decodeVarint (demo 8 [0x00]).headerBytes = .value 0 1 ∧
      decodeVarint (demo 8 [0x04, 0x09]).headerBytes = .value 4 1 ∧
      seen answer (exec .next (demo 8 [0x00])) = some (2, 0, 1) ∧
      seen answer (exec .next (demo 8 [0x04, 0x09])) = some (0, 9, 2) := ⟨⟨rfl, rfl⟩, by decide⟩

theorem witness_CommandHandshake :
    ({ demo 8 [] with host := [.command 2 5] } : State).cmdReady = true ∧
      seen State.cmdReady (step { demo 8 [] with host := [.command 2 5] }) = some false ∧
      seen (fun t => (t.pending, t.host)) (step { demo 8 [] with pending := some ⟨0, 1⟩, host := [.command 2 5] }) =
        some (some ⟨0, 0⟩, [.command 2 5]) ∧
      seen (fun t => (t.pending, t.host))
          (step { demo 8 [] with pending := some ⟨0, 1⟩, host := [.commandNow 2 5] }) =
        some (some ⟨0, 0⟩, []) := by decide

theorem witness_TakenCommandIsAnswered :
    ({ demo 8 [] with pending := some ⟨0, 1⟩, host := [.command 2 0] } : State).pending = some ⟨0, 1⟩ ∧
      (∀ m ∈ ({ demo 8 [] with pending := some ⟨0, 1⟩, host := [.command 2 0] } : State).host, m ≠ .reset) := by
  decide

theorem witness_StepKeepsInv :
    (due 0 (inGroup 7 0 [])).Inv ∧ ∃ t, step (due 0 (inGroup 7 0 [])) = .next t :=
  ⟨inv_of_checks (by decide), _, rfl⟩

theorem witness_PositionMoves :
    (due 0 (inGroup 0 1 [1, 2, 3])).Inv ∧ seen answer (step (due 0 (inGroup 0 1 [1, 2, 3]))) = some (0, 1, 3) ∧
      seen State.position (step (due 1 { inGroup 1 0 [1, 2, 3] with position := 3 })) = some 0 :=
  ⟨inv_of_checks (by decide), by decide⟩

end Sys2Proof.Tests
end

section
/-! SUPPORT. The status port (spec/10_state.md part 4): the word at each select, the fields of STATUS, and the effect of
a status read. -/

namespace Sys2Proof.Machine

/-! ## The word at each select -/

@[simp] theorem State.statusAt_zero (s : State) : s.statusAt 0x0 = s.statusWord := rfl

/-- The selects 0x8 to 0xF are the lanes of the current group (10_state R32). -/
theorem State.statusAt_lane (s : State) (k : Fin 8) :
    s.statusAt (BitVec.ofNat 4 (8 + k.val)) = s.bpGroup.get k := by
  fin_cases k <;> rfl

/-- Settles O10: each select is one branch of `statusAt`, and the last eight are the lanes. -/
theorem statusPortMap : Obligations.StatusPortMap := by
  unfold Obligations.StatusPortMap
  exact fun s => ⟨rfl, rfl, rfl, rfl, rfl, rfl, rfl, rfl, rfl, s.statusAt_lane⟩

/-! ## The fields of STATUS -/

/-- Settles O9: a field of STATUS lies whole in one part of the word, above the parts concatenated after it. -/
theorem statusWordFields : Obligations.StatusWordFields := by
  unfold Obligations.StatusWordFields
  intro s
  simp only [State.statusAt_zero, State.statusWord]
  refine ⟨?cfgState, ?runState, ?errCode, ?bpGroupPos, ?bitWidth, ?byteWidth, ?unused⟩
  all_goals
    simp (disch := omega) only [BitVec.extractLsb'_append_eq_of_le, BitVec.extractLsb'_append_eq_of_add_le,
      Nat.reduceSub, BitVec.extractLsb'_eq_self]

/-! ## A status read -/

theorem State.hostTurn_statusRead {s : State} {sel : BitVec 4} {rest : List HostMove}
    (h : s.host = .statusRead sel :: rest) : s.hostTurn = { s with host := rest, statSel := sel } := by
  simp only [State.hostTurn, h]

/-- Waiting writes no register. -/
theorem State.sameRegisters_ticked (s : State) : s.SameRegisters s.ticked := by
  simp [State.SameRegisters, State.ticked]

/-- Agreeing on every register passes along a chain of states. -/
theorem State.SameRegisters.trans {s t u : State} (h : s.SameRegisters t) (h' : t.SameRegisters u) :
    s.SameRegisters u := by
  unfold State.SameRegisters at *
  simp_all

/-- The command waited for keeps its word as its answer comes nearer (30_encoding R71). -/
theorem State.ticked_pending_word (s : State) : s.ticked.pending.map Pending.word = s.pending.map Pending.word := by
  simp [State.ticked, Function.comp_def]

/-- The exact step of a status read in which no command is answered (10_state R32, R34). -/
theorem step_statusRead {s : State} {sel : BitVec 4} {rest : List HostMove} (hn : s.NotDue)
    (hh : s.host = .statusRead sel :: rest) : step s = .next { s.ticked with host := rest, statSel := sel } := by
  rw [step_of_notDue hn, State.hostTurn_statusRead (s := s.ticked) hh]

/-- In a step that answers no command every register keeps its value unless the host resets the block
(10_state R34). -/
theorem step_sameRegisters_of_notDue {s t : State} (hn : s.NotDue) (hs : step s = .next t) :
    s.SameRegisters t ∨ s.ResetNext := by
  rw [step_of_notDue hn] at hs
  obtain rfl : s.ticked.hostTurn = t := Host.Outcome.next.inj hs
  obtain h | hreset := s.ticked.hostTurn_sameRegisters
  · exact .inl (s.sameRegisters_ticked.trans h)
  · exact .inr ⟨hn, hreset⟩

/-- Settles O11: a status read writes `stat_sel` alone beside the wait, and of the host's other moves only reset
writes a register. -/
theorem statusReadHasNoSideEffect : Obligations.StatusReadHasNoSideEffect := by
  unfold Obligations.StatusReadHasNoSideEffect
  refine ⟨fun s sel rest hn hh => ?_, fun s t => step_sameRegisters_of_notDue⟩
  exact ⟨_, step_statusRead hn hh, s.sameRegisters_ticked, rfl, s.ticked_pending_word, rfl, rfl, rfl, rfl, rfl⟩

end Sys2Proof.Machine
end

section
/-! SUPPORT. The reads of a command (spec/20_memory.md R52, R53): how many bytes it drives addresses for, where they
lie, and what they are. -/

namespace Sys2Proof.Machine

/-! ## Where a header's varint stops -/

/-- ReadVarint at `position` looks at `n` bytes: up to the one that ends, breaks or cuts off the varint
(42_run_header R142). -/
def State.HeaderScans (s : State) (n : Nat) : Prop :=
  decodeVarint s.headerBytes = .truncated n ∨ decodeVarint s.headerBytes = .malformed n ∨
    ∃ h, decodeVarint s.headerBytes = .value h n

/-- A scan stays within the varint's bound and the buffer. -/
theorem State.HeaderScans.bounds {s : State} {n : Nat} (h : s.HeaderScans n) :
    n ≤ 5 ∧ n ≤ s.bufLen.toNat - s.position.toNat := by
  have hlen := s.headerBytes_length
  obtain e | e | ⟨_, e⟩ := h
  · have := decodeVarint_truncated_bounds e
    omega
  · have := decodeVarint_malformed_bounds e
    omega
  · have := decodeVarint_value_bounds e
    omega

/-! ## The reads of a command from its first state and its last -/

/-- The command that leads from `s` to `t` reads the `n` bytes from `position` on: inside the buffer, all of them
consumed when it answers OK, and none but the header's when it answers an error (20_memory R52, R53). -/
structure State.Reads (s t : State) (n : Nat) : Prop where
  addrs : t.memAddrs = (s.noteReads s.position.toNat n).memAddrs
  inBuffer : s.position.toNat + n ≤ s.bufLen.toNat
  atMost : n ≤ 5 + s.bitWidth.toNat
  ofOk : t.rspStatus = 0 → t.position.toNat = s.position.toNat + n
  ofError : t.rspStatus ≠ 0 → n ≠ 0 → s.HeaderScans n

/-- A command that leaves the read port and `position` alone reads nothing. -/
theorem State.reads_zero {s t : State} (hi : s.Inv) (ha : t.memAddrs = s.memAddrs) (hp : t.position = s.position) :
    s.Reads t 0 where
  addrs := by rw [ha, State.noteReads_zero]
  inBuffer := hi.positionInBuffer
  atMost := Nat.zero_le _
  ofOk _ := congrArg BitVec.toNat hp
  ofError _ h0 := absurd rfl h0

/-- Code 0 is OK's: no raised kind answers it (60_exceptions R201). -/
theorem ErrKind.code_ne_zero (k : ErrKind) : k.code ≠ 0 := by
  cases k <;> decide

/-- A command that raises at its header reads what ReadVarint looks at. -/
theorem State.reads_of_header_error {s u : State} {n : Nat} {k : ErrKind} (hi : s.Inv) (hn : s.HeaderScans n)
    (ha : u.memAddrs = (s.noteReads s.position.toNat n).memAddrs) : s.Reads (u.raise k) n where
  addrs := ha
  inBuffer := by
    have := hi.positionInBuffer
    have := hn.bounds
    omega
  atMost := by
    have := hn.bounds
    omega
  ofOk h0 := absurd h0 k.code_ne_zero
  ofError _ _ := hn

/-- A command that answers OK reads the bytes it moves `position` past. -/
theorem State.reads_of_consumed {s t : State} {n : Nat} (hn : n ≤ 5 + s.bitWidth.toNat)
    (hf : s.position.toNat + n ≤ s.bufLen.toNat) (ha : t.memAddrs = (s.noteReads s.position.toNat n).memAddrs)
    (hp : t.position = BitVec.ofNat 32 (s.position.toNat + n)) (hok : t.rspStatus = 0) : s.Reads t n where
  addrs := ha
  inBuffer := hf
  atMost := hn
  ofOk _ := by rw [hp, position_toNat hf]
  ofError h0 := absurd hok h0

/-! ## What each command reads -/

/-- A value takes at most as many bytes as it has bits (40_config_init R101). -/
theorem State.Inv.byteWidth_le_bitWidth {s : State} (hi : s.Inv) (hc : s.cfgState = .configured) :
    s.byteWidth.toNat ≤ s.bitWidth.toNat := by
  obtain ⟨h1, -, hb⟩ := hi.configured hc
  omega

/-- Every outcome of a decoding NEXT reads from `position` on, and only what it may (20_memory R52, R53). -/
theorem NextOutcome.reads {s t : State} (hi : s.Inv) (hc : s.cfgState = .configured) (ho : NextOutcome s t) :
    ∃ n, s.Reads t n := by
  have hbw := hi.byteWidth_le_bitWidth hc
  cases ho with
  | headerTruncated n _ e => exact ⟨n, s.reads_of_header_error hi (.inl e) rfl⟩
  | headerMalformed n _ e => exact ⟨n, s.reads_of_header_error hi (.inr (.inl e)) rfl⟩
  | headerEmpty h n _ e => exact ⟨n, s.reads_of_header_error hi (.inr (.inr ⟨h, e⟩)) rfl⟩
  | rleShort h n _ e => exact ⟨n, s.reads_of_header_error hi (.inr (.inr ⟨h, e⟩)) rfl⟩
  | bitpackedShort h n _ e => exact ⟨n, s.reads_of_header_error hi (.inr (.inr ⟨h, e⟩)) rfl⟩
  | rleStart h n _ e _ _ hf =>
    have := State.header_fits e
    exact ⟨n + s.byteWidth.toNat, s.reads_of_consumed (by omega) (by omega) rfl (by simp [Nat.add_assoc]) rfl⟩
  | bitpackedStart h n _ e _ _ hf =>
    have := State.header_fits e
    exact ⟨n + s.bitWidth.toNat, s.reads_of_consumed (by omega) (by omega) rfl (by simp [Nat.add_assoc]) rfl⟩
  | rle => exact ⟨0, s.reads_zero hi rfl rfl⟩
  | lane => exact ⟨0, s.reads_zero hi rfl rfl⟩
  | group _ _ _ hf => exact ⟨s.bitWidth.toNat, s.reads_of_consumed (by omega) hf rfl rfl rfl⟩
  | groupShort => exact ⟨0, s.reads_zero hi rfl rfl⟩

/-- NEXT reads from `position` on in every configuration state, and nothing where it does not decode. -/
theorem CommandOutcome.reads {s t : State} {w : BitVec 66} (hi : s.Inv) (hop : cmdOp w = 0)
    (ho : CommandOutcome w s t) : ∃ n, s.Reads t n := by
  cases ho with
  | next _ hR _ hn => exact hn.reads hi hR.1
  | fatal => exact ⟨0, s.reads_zero hi rfl rfl⟩
  | unconfigured => exact ⟨0, s.reads_zero hi rfl rfl⟩
  | latched => exact ⟨0, s.reads_zero hi rfl rfl⟩
  | reserved _ h | initRefused _ h | init _ h | configIllegal _ h | config _ h => simp [hop] at h

/-- Only NEXT reads (20_memory R53). -/
theorem CommandOutcome.memAddrs_of_not_next {s t : State} {w : BitVec 66} (hop : cmdOp w ≠ 0)
    (ho : CommandOutcome w s t) : t.memAddrs = s.memAddrs := by
  cases ho with
  | next _ _ h | latched _ h => exact absurd h hop
  | _ => rfl

/-- The address of an offset of the buffer is the sum of base and offset (10_state R25). -/
theorem State.bufAddr_eq (s : State) (off : Nat) : s.bufAddr off = BitVec.ofNat 32 (s.bufBase.toNat + off) :=
  position_add

/-- Settles O40: every outcome of a NEXT says which bytes it reads, and the other commands read none. -/
theorem readsAscendInsideWindow : Obligations.ReadsAscendInsideWindow := by
  unfold Obligations.ReadsAscendInsideWindow
  intro s w hi hd
  obtain ⟨t, hrun, ho⟩ := runCommand_outcome hi.answering w
  have hwin := hi.windowInSpace
  by_cases hop : cmdOp w = 0
  · obtain ⟨n, addrs, inBuffer, atMost, ofOk, ofError⟩ := ho.reads hi.answering hop
    have hin : s.position.toNat + n ≤ s.bufLen.toNat := inBuffer
    refine ⟨t, n, (step_of_due hd).trans hrun, ?addrs, hin, by omega, absurd hop, atMost, fun _ => ofOk, ofError⟩
    simpa [State.answering, State.bufAddr_eq, Nat.add_assoc] using addrs
  · have hin := hi.positionInBuffer
    exact ⟨t, 0, (step_of_due hd).trans hrun, ho.memAddrs_of_not_next hop, hin, by omega, fun _ => rfl, Nat.zero_le _,
      fun h0 => absurd h0 hop, fun _ h0 => absurd rfl h0⟩

end Sys2Proof.Machine
end

section
/-! SUPPORT. The encodings of the command port and of a run header's varint (spec/30_encoding.md R73 to R79). -/

namespace Sys2Proof.Machine

/-! ## Command words -/

/-- The fields of a command word stand side by side (30_encoding R73). -/
theorem cmdWord_toNat (op : BitVec 2) (arg0 arg1 : Word) :
    (cmdWord op arg0 arg1).toNat = op.toNat ||| arg0.toNat <<< 2 ||| arg1.toNat <<< 34 := by
  rw [cmdWord, BitVec.toNat_append, BitVec.toNat_append, Nat.shiftLeft_or_distrib, ← Nat.shiftLeft_add,
    Nat.lor_comm, Nat.lor_comm (arg1.toNat <<< _), ← Nat.lor_assoc]

/-- Settles O3: the opcode alone chooses the instruction, and each argument field reads back what was put there. -/
theorem commandWordAndOpcodeMap : Obligations.CommandWordAndOpcodeMap := by
  unfold Obligations.CommandWordAndOpcodeMap
  intro op arg0 arg1
  have hop := cmdOp_cmdWord op arg0 arg1
  refine ⟨cmdWord_toNat op arg0 arg1, fun h => ?next, fun h => ?init, fun h => ?config, fun h => ?reserved⟩
  case next => exact decodeCmd_next (hop.trans h)
  case init => rw [decodeCmd_init (hop.trans h), cmdArg0_cmdWord, cmdArg1_cmdWord]
  case config => rw [decodeCmd_config (hop.trans h), cmdArg0_cmdWord]
  case reserved => exact decodeCmd_reserved (hop.trans h)

/-- A due command in FATAL answers the latched code, whatever its opcode (60_exceptions R206). -/
theorem step_of_due_fatal {s : State} {w : BitVec 66} (hd : s.Due w) (hc : s.cfgState = .fatal) :
    step s = .next (s.answering.respond s.errCode 0) := by
  obtain ⟨body, hbody⟩ := runCommand_eq_prologue w
  rw [step_of_due hd, hbody, State.prologue_of_fatal (s := s.answering) hc]
  rfl

/-- A due word of the reserved opcode is refused once past the prologue (30_encoding R76). -/
theorem step_of_due_reserved {s : State} {w : BitVec 66} (hd : s.Due w) (hop : cmdOp w = 3)
    (hc : s.cfgState = .unconfigured ∨ s.cfgState = .configured) : step s = .next s.answering.respondIllegal := by
  rw [step_of_due hd, runCommand_reserved hop, execReserved]
  obtain hc | hc := hc
  · rw [State.prologue_of_unconfigured (s := s.answering) hc]
  · rw [State.prologue_of_configured (s := s.answering) hc]

/-- Settles O16: past the prologue the reserved opcode is refused, and in FATAL the latch answers. -/
theorem reservedOpcodeRefused : Obligations.ReservedOpcodeRefused := by
  unfold Obligations.ReservedOpcodeRefused
  exact fun s w hd hop => ⟨step_of_due_reserved hd hop, step_of_due_fatal hd⟩

/-! ## The value of a varint's bytes -/

/-- Each byte of a varint gives 7 bits. -/
theorem varintSum_lt (bs : List Byte) : varintSum bs < 2 ^ (7 * bs.length) := by
  induction bs with
  | nil => decide
  | cons b bs ih =>
    rw [varintSum, List.length_cons, Nat.mul_succ, Nat.pow_add]
    omega

/-- The groups of later bytes stand above those of earlier ones (30_encoding R78). -/
theorem varintSum_append (bs cs : List Byte) :
    varintSum (bs ++ cs) = varintSum bs + varintSum cs * 2 ^ (7 * bs.length) := by
  induction bs with
  | nil => simp [varintSum]
  | cons b bs ih =>
    rw [List.cons_append, varintSum, varintSum, ih, List.length_cons, Nat.mul_succ, Nat.pow_add]
    ring

theorem varintSum_singleton {b : Byte} (hb : b.toNat < 128) : varintSum [b] = b.toNat := by
  simp [varintSum, Nat.mod_eq_of_lt hb]

/-! ## The scan over bytes with bit 7 set -/

/-- The loop passes bytes with bit 7 set on, and gathers the value of their groups. -/
theorem scanVarint_append {bs : List Byte} (hbs : ∀ b ∈ bs, 128 ≤ b.toNat) (fuel : Nat) {k h : Nat}
    (hh : h < 2 ^ (7 * k)) (rest : List Byte) :
    scanVarint (fuel + bs.length) k h (bs ++ rest) =
      scanVarint fuel (k + bs.length) (h + varintSum bs * 2 ^ (7 * k)) rest := by
  induction bs generalizing k h with
  | nil => simp [varintSum]
  | cons b bs ih =>
    obtain ⟨hb, hbs⟩ := List.forall_mem_cons.mp hbs
    have hpow : 2 ^ (7 * (k + 1)) = 2 ^ (7 * k) * 128 := by rw [Nat.mul_succ, Nat.pow_add]
    have hnext : h + b.toNat % 128 * 2 ^ (7 * k) < 2 ^ (7 * (k + 1)) := by
      have hgroup : b.toNat % 128 ≤ 127 := by omega
      have := Nat.mul_le_mul_right (2 ^ (7 * k)) hgroup
      omega
    rw [List.length_cons, ← Nat.add_assoc, List.cons_append, scanVarint_continue hb, or_shiftLeft_eq_add hh,
      ih hbs hnext, varintSum, hpow]
    congr 1 <;> ring

/-- Up to five bytes with bit 7 set are passed on, whatever follows. -/
theorem decodeVarint_append {bs : List Byte} (hbs : ∀ b ∈ bs, 128 ≤ b.toNat) {fuel : Nat} (hf : fuel + bs.length = 5)
    (rest : List Byte) : decodeVarint (bs ++ rest) = scanVarint fuel bs.length (varintSum bs) rest := by
  have hscan := scanVarint_append hbs fuel (k := 0) (h := 0) (by decide) rest
  rw [hf] at hscan
  simpa [decodeVarint, Config.maxVarintBytes] using hscan

/-! ## How a varint ends -/

/-- A varint that ends within its five bytes is legal if its value is a word (30_encoding R78, R79). -/
theorem decodeVarint_last {bs : List Byte} {last : Byte} (hlen : bs.length ≤ 4) (hbs : ∀ b ∈ bs, 128 ≤ b.toNat)
    (hl : last.toNat < 128) (rest : List Byte) :
    decodeVarint (bs ++ last :: rest) =
      if varintSum (bs ++ [last]) ≤ 2 ^ 32 - 1 then
        .value (BitVec.ofNat 32 (varintSum (bs ++ [last]))) (bs.length + 1)
      else .malformed (bs.length + 1) := by
  have hor : varintSum bs ||| (last.toNat % 128) <<< (7 * bs.length) = varintSum (bs ++ [last]) := by
    rw [or_shiftLeft_eq_add (varintSum_lt bs), varintSum_append, varintSum_singleton hl, Nat.mod_eq_of_lt hl]
  rw [decodeVarint_append hbs (fuel := 4 - bs.length + 1) (by omega), scanVarint_last hl, hor]
  simp only [← Nat.not_le, ite_not]

/-- Five bytes with bit 7 set are malformed (30_encoding R78). -/
theorem decodeVarint_tooLong {bs : List Byte} (hlen : bs.length = 5) (hbs : ∀ b ∈ bs, 128 ≤ b.toNat)
    (rest : List Byte) : decodeVarint (bs ++ rest) = .malformed 5 := by
  rw [decodeVarint_append hbs (fuel := 0) (by omega), scanVarint, hlen]

/-- The bytes end while bit 7 still asks for one more (30_encoding R83). -/
theorem decodeVarint_cut {bs : List Byte} (hlen : bs.length ≤ 4) (hbs : ∀ b ∈ bs, 128 ≤ b.toNat) :
    decodeVarint bs = .truncated bs.length := by
  have hscan := decodeVarint_append hbs (fuel := 4 - bs.length + 1) (by omega) []
  rwa [List.append_nil, scanVarint] at hscan

/-- A fifth byte stands at bit 28, so a word leaves it four bits (30_encoding R79). -/
theorem varintSum_fifth_le {bs : List Byte} {last : Byte} (hlen : bs.length = 4) (hl : last.toNat < 128) :
    varintSum (bs ++ [last]) ≤ 2 ^ 32 - 1 ↔ last.toNat ≤ 0x0F := by
  have hlow := varintSum_lt bs
  rw [hlen] at hlow
  rw [varintSum_append, varintSum_singleton hl, hlen]
  omega

/-- Settles O4: the scan gathers the sum of the 7-bit groups, and its end decides the answer. -/
theorem varintValueAndBounds : Obligations.VarintValueAndBounds := by
  unfold Obligations.VarintValueAndBounds
  exact ⟨fun bs last rest hlen hbs hl => ⟨decodeVarint_last hlen hbs hl rest, fun h4 => varintSum_fifth_le h4 hl⟩,
    fun bs rest hlen hbs => decodeVarint_tooLong hlen hbs rest, fun bs => decodeVarint_cut⟩

end Sys2Proof.Machine
end

section
/-! SUPPORT. CONFIG and INIT as exact states (spec/40_config_init.md), NEXT with no byte left for a header, and which
commands leave the widths alone. -/

namespace Sys2Proof.Machine

/-! ## CONFIG -/

/-- Past the prologue, UNCONFIGURED and CONFIGURED run the command's own body alike (60_exceptions R206, R207). -/
theorem State.prologue_of_running {s : State} (hc : s.cfgState = .unconfigured ∨ s.cfgState = .configured)
    (body : State → State) : s.prologue body = body s :=
  hc.elim (State.prologue_of_unconfigured · body) (State.prologue_of_configured · body)

/-- A legal CONFIG restarts the block with the new widths and no buffer (40_config_init R100). -/
theorem exec_config_of_legal {s : State} {w : Word} (hc : s.cfgState = .unconfigured ∨ s.cfgState = .configured)
    (h1 : 1 ≤ w.toNat) (h2 : w.toNat ≤ 32) :
    exec (.config w) s = .next (State.respond 0 0
      { s.restart with
        bitWidth := w.setWidth 6, byteWidth := byteWidthOf w.toNat, bufBase := 0, bufLen := 0,
        cfgState := .configured }) := by
  rw [exec, execConfig, State.prologue_of_running hc, State.configBody_of_legal h1 h2, Status.code]

/-- An illegal width is raised, whatever the state of the run (40_config_init R100). -/
theorem exec_config_of_illegal {s : State} {w : Word} (hc : s.cfgState = .unconfigured ∨ s.cfgState = .configured)
    (hw : ¬ (1 ≤ w.toNat ∧ w.toNat ≤ 32)) : exec (.config w) s = .next (s.raise .invalidConfiguration) := by
  rw [exec, execConfig, State.prologue_of_running hc, State.configBody_of_illegal hw]

/-- FATAL answers every command and lasts through every move of the host but reset (60_exceptions R206). -/
theorem step_fatal_of_fatal {s t : State} (hc : s.cfgState = .fatal) (hs : step s = .next t) :
    t.cfgState = .fatal ∨ s.ResetNext := by
  obtain ⟨w, hd⟩ | hn := s.due_or_notDue
  · rw [step_of_due_fatal hd hc] at hs
    obtain rfl := Host.Outcome.next.inj hs
    exact .inl hc
  · exact (step_sameRegisters_of_notDue hn hs).imp_left fun ⟨hcfg, _⟩ => hcfg.trans hc

/-- Settles O12: the two branches of CONFIG's body, written out. -/
theorem configBuildsOrFaults : Obligations.ConfigBuildsOrFaults := by
  unfold Obligations.ConfigBuildsOrFaults
  refine ⟨fun w arg1 => ?decodes, fun s w hc => ⟨fun ⟨h1, h2⟩ => ?legal, fun hw => ?illegal⟩,
    fun s t => step_fatal_of_fatal⟩
  case decodes => rw [decodeCmd_config (cmdOp_cmdWord 2 w arg1), cmdArg0_cmdWord]
  case legal =>
    rw [exec_config_of_legal hc h1 h2, ← BitVec.ofNat_toNat, byteWidthOf, Nat.shiftRight_eq_div_pow]
    rfl
  case illegal =>
    rw [exec_config_of_illegal hc (by omega)]
    rfl

/-! ## NEXT at the end of the buffer -/

/-- With no byte left for a header, NEXT raises Truncated and reads nothing (42_run_header R141). -/
theorem exec_next_at_end {s : State} (hR : s.Ready) (hr : s.runState = .needsHeader) (he : s.position = s.bufLen) :
    exec .next s = .next (s.raise .truncated) := by
  have hnone : decodeVarint s.headerBytes = .truncated 0 := by
    rw [State.headerBytes_at_end (by rw [he]), decodeVarint_nil]
  rw [exec_next_of_header hR hr, State.readRunHeader_of_truncated hnone, State.noteReads_zero, Attempt.finish]

/-- Settles O29: a legal CONFIG leaves position and length at 0, so its NEXT is one at the end of the buffer. -/
theorem nextAtEndIsTruncated : Obligations.NextAtEndIsTruncated := by
  unfold Obligations.NextAtEndIsTruncated
  exact ⟨fun s hR hr he => exec_next_at_end hR hr he,
    fun s w hc h1 h2 => ⟨_, exec_config_of_legal hc h1 h2, rfl, exec_next_at_end ⟨rfl, rfl⟩ rfl rfl⟩⟩

/-! ## INIT -/

/-- INIT binds a window that ends inside the address space (40_config_init R110). -/
theorem exec_init_of_legal {s : State} {base len : Word} (hc : s.cfgState = .configured)
    (hw : base.toNat + len.toNat ≤ 2 ^ 32) :
    exec (.init base len) s = .next (State.respond 0 0 { s.restart with bufBase := base, bufLen := len }) := by
  rw [exec, execInit, State.prologue_of_configured hc, State.initBody_of_legal hc hw, Status.code]

/-- INIT refuses a window past the top of the address space (40_config_init R111). -/
theorem exec_init_of_overflow {s : State} {base len : Word} (hc : s.cfgState = .configured)
    (hw : 2 ^ 32 < base.toNat + len.toNat) : exec (.init base len) s = .next s.respondIllegal := by
  rw [exec, execInit, State.prologue_of_configured hc, State.initBody_of_overflow hw]

/-- INIT needs a width first (40_config_init R104). -/
theorem exec_init_of_unconfigured {s : State} (hc : s.cfgState = .unconfigured) (base len : Word) :
    exec (.init base len) s = .next s.respondIllegal := by
  rw [exec, execInit, State.prologue_of_unconfigured hc, State.initBody_of_unconfigured hc]

/-- Inside a legal window no address wraps (40_config_init R111). -/
theorem State.bufAddr_toNat_of_window {s : State} (hw : s.bufBase.toNat + s.bufLen.toNat ≤ 2 ^ 32) {i : Nat}
    (hi : i < s.bufLen.toNat) : (s.bufAddr i).toNat = s.bufBase.toNat + i := by
  rw [State.bufAddr_eq, BitVec.toNat_ofNat, Nat.mod_eq_of_lt (by omega)]

/-- Settles O14: INIT's branches written out; after length 0 position and length agree, so NEXT is at the end. -/
theorem initBindsOrRefuses : Obligations.InitBindsOrRefuses := by
  unfold Obligations.InitBindsOrRefuses
  intro s base len
  refine ⟨?decodes, fun hc hw => ⟨exec_init_of_legal hc hw, fun i hi => ?address⟩,
    fun hc hw => exec_init_of_overflow hc hw, fun hc => exec_init_of_unconfigured hc base len, fun hc hlen => ?empty⟩
  case decodes => rw [decodeCmd_init (cmdOp_cmdWord 1 base len), cmdArg0_cmdWord, cmdArg1_cmdWord]
  case address => exact State.bufAddr_toNat_of_window (s := { s with bufBase := base, bufLen := len }) hw hi
  case empty =>
    subst hlen
    have hw : base.toNat + (0 : Word).toNat ≤ 2 ^ 32 := base.isLt.le
    exact ⟨_, exec_init_of_legal hc hw, exec_next_at_end ⟨hc, rfl⟩ rfl rfl⟩

/-! ## The byte width of a width -/

/-- The byte width of a legal width is no wider than its register (40_config_init R101). -/
theorem byteWidthOf_toNat {w : Nat} (hw : w ≤ 32) : (byteWidthOf w).toNat = (w + 7) >>> 3 := by
  rw [byteWidthOf, BitVec.toNat_ofNat, Nat.shiftRight_eq_div_pow, Nat.mod_eq_of_lt (by omega)]

/-- `b` bytes are the byte width of the 8 widths up to `8 * b` (40_config_init R101). -/
theorem byteWidthOf_eq {w : Nat} {b : BitVec 3} (hw : w ≤ 32) (hlo : 8 * b.toNat < w + 8) (hhi : w ≤ 8 * b.toNat) :
    byteWidthOf w = b := by
  apply BitVec.eq_of_toNat_eq
  rw [byteWidthOf_toNat hw, Nat.shiftRight_eq_div_pow]
  omega

/-! ## What leaves the widths alone -/

/-- Two states agree on both widths (10_state R24). -/
def State.SameWidths (s t : State) : Prop := t.bitWidth = s.bitWidth ∧ t.byteWidth = s.byteWidth

theorem State.SameWidths.trans {s t u : State} (h : s.SameWidths t) (h' : t.SameWidths u) : s.SameWidths u :=
  ⟨h'.1.trans h.1, h'.2.trans h.2⟩

theorem State.SameRegisters.sameWidths {s t : State} (h : s.SameRegisters t) : s.SameWidths t :=
  let ⟨_, hbit, hbyte, _⟩ := h
  ⟨hbit, hbyte⟩

/-- A broken run is an InternalFault (41_next R128). -/
theorem State.serve_of_broken {s : State} (h : ¬ (s.runState = .inRle ∧ s.rleRemaining ≠ 0 ∨
    s.runState = .inBitpacked ∧ (s.bpGroupsRemaining ≠ 0 ∨ s.bpGroupPos ≠ 0))) :
    s.serve = s.raise .internalFault := by
  cases hr : s.runState with
  | needsHeader => simp only [State.serve, hr]
  | encoding3 => simp only [State.serve, hr]
  | inRle =>
    have h0 : s.rleRemaining = 0 := by simpa [hr] using h
    simp only [State.serve, hr, State.serveRle, if_pos h0]
  | inBitpacked =>
    obtain ⟨hg, hp⟩ : s.bpGroupsRemaining = 0 ∧ s.bpGroupPos = 0 := by simpa [hr] using h
    simp only [State.serve, hr, State.serveBitpacked, if_pos hg, if_pos hp]

theorem State.serve_sameWidths (s : State) : s.SameWidths s.serve := by
  by_cases live : s.runState = .inRle ∧ s.rleRemaining ≠ 0 ∨
      s.runState = .inBitpacked ∧ (s.bpGroupsRemaining ≠ 0 ∨ s.bpGroupPos ≠ 0)
  · obtain ⟨-, er⟩ | ⟨-, -, er⟩ | ⟨-, -, -, -, er⟩ | ⟨-, -, -, -, er⟩ := State.serve_cases live <;>
      exact er ▸ ⟨rfl, rfl⟩
  · exact State.serve_of_broken live ▸ ⟨rfl, rfl⟩

theorem State.readRunHeader_sameWidths (s : State) : s.SameWidths s.readRunHeader.state := by
  obtain ⟨_, -, er⟩ | ⟨_, -, er⟩ | ⟨_, _, -, -, er⟩ | ⟨_, _, -, -, -, -, er⟩ | ⟨_, _, -, -, -, -, er⟩ |
    ⟨_, _, -, -, -, er⟩ := s.readRunHeader_cases <;> exact er ▸ ⟨rfl, rfl⟩

theorem Attempt.finish_sameWidths {α : Type} {s : State} {r : Attempt α} {go : α → State → State}
    (h : s.SameWidths r.state) (hgo : ∀ a (u : State), u.SameWidths (go a u)) : s.SameWidths (r.finish go) := by
  cases r with
  | ok a u => exact h.trans (hgo a u)
  | raised k u => exact h

theorem State.nextBody_sameWidths (s : State) : s.SameWidths s.nextBody := by
  unfold State.nextBody
  split_ifs
  · exact ⟨rfl, rfl⟩
  · exact ⟨rfl, rfl⟩
  · exact Attempt.finish_sameWidths s.readRunHeader_sameWidths fun _ u => u.serve_sameWidths
  · exact s.serve_sameWidths

theorem State.initBody_sameWidths (base len : Word) (s : State) : s.SameWidths (s.initBody base len) := by
  unfold State.initBody
  split_ifs <;> exact ⟨rfl, rfl⟩

theorem State.prologue_sameWidths {body : State → State} (h : ∀ u : State, u.SameWidths (body u)) (s : State) :
    s.SameWidths (s.prologue body) := by
  unfold State.prologue
  split
  · exact ⟨rfl, rfl⟩
  · exact ⟨rfl, rfl⟩
  · exact h s
  · exact h s

/-- Of the command words only CONFIG's writes a width (40_config_init R101). -/
theorem runCommand_sameWidths {w : BitVec 66} {s t : State} (hop : cmdOp w ≠ 2) (h : runCommand w s = .next t) :
    s.SameWidths t := by
  obtain h0 | h1 | h2 | h3 := cmdOp_cases w
  · rw [runCommand_next h0] at h
    exact Host.Outcome.next.inj h ▸ State.prologue_sameWidths State.nextBody_sameWidths s
  · rw [runCommand_init h1] at h
    exact Host.Outcome.next.inj h ▸ State.prologue_sameWidths (State.initBody_sameWidths _ _) s
  · exact absurd h2 hop
  · rw [runCommand_reserved h3] at h
    exact Host.Outcome.next.inj h ▸ State.prologue_sameWidths (body := State.respondIllegal) (fun _ => ⟨rfl, rfl⟩) s

/-- A step keeps the widths unless it answers a CONFIG or resets the block (40_config_init R101). -/
theorem step_sameWidths {s t : State} (hs : step s = .next t) :
    s.SameWidths t ∨ (∃ w, s.Due w ∧ cmdOp w = 2) ∨ s.ResetNext := by
  obtain ⟨w, hd⟩ | hn := s.due_or_notDue
  · by_cases hop : cmdOp w = 2
    · exact .inr (.inl ⟨w, hd, hop⟩)
    · exact .inl (runCommand_sameWidths (s := s.answering) hop (step_of_due hd ▸ hs))
  · exact (step_sameRegisters_of_notDue hn hs).imp State.SameRegisters.sameWidths .inr

/-- Settles O13: CONFIG writes `byteWidthOf`, and no other command writes a width. -/
theorem byteWidthIsCeilAndFixed : Obligations.ByteWidthIsCeilAndFixed := by
  unfold Obligations.ByteWidthIsCeilAndFixed
  refine ⟨fun s w hc h1 h2 => ⟨_, exec_config_of_legal hc h1 h2, byteWidthOf_toNat h2, fun hhi => ?one,
    fun hlo hhi => ?two, fun hlo hhi => ?three, fun hlo => ?four⟩, fun s t => step_sameWidths⟩
  case one => exact byteWidthOf_eq h2 (by bv_omega) hhi
  case two => exact byteWidthOf_eq h2 (by bv_omega) hhi
  case three => exact byteWidthOf_eq h2 (by bv_omega) hhi
  case four => exact byteWidthOf_eq h2 (by bv_omega) h2

end Sys2Proof.Machine
end

section
/-! SUPPORT. NEXT inside a run as exact states (spec/41_next.md R122 to R126, R128), each from what the case on
`run_state` serves there. -/

namespace Sys2Proof.Machine

/-- `run_state` 3 and a run with nothing left are an InternalFault that enters FATAL (41_next R128). -/
theorem exec_next_of_broken {s : State} (hR : s.Ready) (hr : s.runState ≠ .needsHeader)
    (h : ¬ (s.runState = .inRle ∧ s.rleRemaining ≠ 0 ∨
      s.runState = .inBitpacked ∧ (s.bpGroupsRemaining ≠ 0 ∨ s.bpGroupPos ≠ 0))) :
    exec .next s = .next (s.raise .internalFault) := by
  rw [exec_next_of_run hR hr, State.serve_of_broken h]

/-- `cfg_state` 3 is an InternalFault already in the prologue (41_next R128, 60_exceptions R207). -/
theorem exec_next_of_encoding3 {s : State} (hc : s.cfgState = .encoding3) :
    exec .next s = .next (s.raise .internalFault) := by
  rw [exec, execNext, State.prologue_of_encoding3 hc]

/-- Settles O24: a lane in between, a group that fits, and a group cut short by the end of the buffer. -/
theorem nextInBitpackedRun : Obligations.NextInBitpackedRun := by
  unfold Obligations.NextInBitpackedRun
  intro s hR hr
  have hrun : exec .next s = .next s.serve := exec_next_of_run hR (by simp [hr])
  refine ⟨fun hp => ?lane, fun hp hg hf => ?group, fun hp hg hf => ?short⟩
  case lane =>
    rw [hrun, State.serve_of_lane hr hp]
    rfl
  case group =>
    -- the run state the group leaves is written `inBitpacked` in the law, and as unchanged in the statement
    rw [hrun, State.serve_of_new_group hr hp hg hf, ← hr]
    rfl
  case short =>
    rw [hrun, State.serve_of_short_group hr hp hg hf]
    rfl

/-- Settles O23: with a value left, the case on `run_state` serves the RLE run. -/
theorem nextServesRleValue : Obligations.NextServesRleValue := by
  unfold Obligations.NextServesRleValue
  intro s hR hr h0
  rw [exec_next_of_run hR (by simp [hr]), State.serve_of_rle hr h0]
  rfl

/-- Settles O25: none of the broken run states is a live run, and `cfg_state` 3 stops at the prologue. -/
theorem nextFaultsOnBrokenState : Obligations.NextFaultsOnBrokenState := by
  unfold Obligations.NextFaultsOnBrokenState
  rintro s (⟨hR, hr | ⟨hr, h0⟩ | ⟨hr, hp, hg⟩⟩ | hc)
  · exact exec_next_of_broken hR (by simp [hr]) (by simp [hr])
  · exact exec_next_of_broken hR (by simp [hr]) (by simp [hr, h0])
  · exact exec_next_of_broken hR (by simp [hr]) (by simp [hr, hp, hg])
  · exact exec_next_of_encoding3 hc

end Sys2Proof.Machine
end

section
/-! SUPPORT. The run headers as exact states (spec/42_run_header.md): which instruction a header word is, what RLE_RUN
and BITPACKED_RUN write from where their header is consumed, and the state each error of a header leaves. -/

namespace Sys2Proof.Machine

/-! ## The instruction of a header word -/

theorem decodeHeader_of_even {h : Word} (ht : h.toNat % 2 = 0) : decodeHeader h = .rleRun (h.extractLsb' 1 31) := by
  obtain ⟨-, hd⟩ | ⟨ht', -⟩ := decodeHeader_cases h
  · exact hd
  · omega

theorem decodeHeader_of_odd {h : Word} (ht : h.toNat % 2 = 1) :
    decodeHeader h = .bitpackedRun (h.extractLsb' 1 31) := by
  obtain ⟨ht', -⟩ | ⟨-, hd⟩ := decodeHeader_cases h
  · omega
  · exact hd

/-- A header word's count is all of the word above its tag bit (30_encoding R80). -/
theorem headerCount_of_tag (c : BitVec 31) {tag : Nat} (ht : tag < 2) :
    (BitVec.ofNat 32 (2 * c.toNat + tag)).extractLsb' 1 31 = c := by
  have := c.isLt
  apply BitVec.eq_of_toNat_eq
  rw [headerCount_toNat, BitVec.toNat_ofNat]
  omega

/-- The header word `2c` is RLE_RUN `c` (30_encoding R80). -/
theorem decodeHeader_two_mul (c : BitVec 31) : decodeHeader (BitVec.ofNat 32 (2 * c.toNat)) = .rleRun c := by
  rw [decodeHeader_of_even (by rw [BitVec.toNat_ofNat]; omega)]
  exact congrArg Instr.rleRun (headerCount_of_tag c Nat.two_pos)

/-- The header word `2c + 1` is BITPACKED_RUN `c` (30_encoding R80). -/
theorem decodeHeader_two_mul_add_one (c : BitVec 31) :
    decodeHeader (BitVec.ofNat 32 (2 * c.toNat + 1)) = .bitpackedRun c := by
  rw [decodeHeader_of_odd (by rw [BitVec.toNat_ofNat]; omega), headerCount_of_tag c Nat.one_lt_two]

/-- A count other than 0 is no 0 in its 32-bit register either (42_run_header R146). -/
theorem ofNat_toNat_ne_zero {c : BitVec 31} (hc : c ≠ 0) : BitVec.ofNat 32 c.toNat ≠ 0 := by
  bv_omega

/-- A run register holds the count of the header word zero-extended (42_run_header R144, R145). -/
theorem headerCount_zeroExtend (h : Word) : (h.extractLsb' 1 31).zeroExtend 32 = BitVec.ofNat 32 (h.toNat / 2) := by
  rw [← headerCount_toNat, BitVec.ofNat_toNat]

/-! ## RLE_RUN and BITPACKED_RUN from where their header is consumed (log 9) -/

theorem exec_rleRun_of_zero (s : State) : exec (.rleRun 0) s = .next (s.raise .emptyRun) := by
  rw [exec, execRleRun, State.enterRleRun_of_zero, Attempt.finish]

/-- RLE_RUN past the end raises before it writes or reads anything (44_rle_value R184). -/
theorem exec_rleRun_of_short {s : State} {c : BitVec 31} (hc : c ≠ 0)
    (hf : s.bufLen.toNat < s.position.toNat + s.byteWidth.toNat) :
    exec (.rleRun c) s = .next (s.raise .truncated) := by
  rw [exec, execRleRun, State.enterRleRun_of_short hc hf, Attempt.finish]

/-- RLE_RUN inside the buffer reads its value at once (42_run_header R144). -/
theorem exec_rleRun_of_fits {s : State} {c : BitVec 31} (hc : c ≠ 0)
    (hf : s.position.toNat + s.byteWidth.toNat ≤ s.bufLen.toNat) :
    exec (.rleRun c) s = .next
      { s.noteReads s.position.toNat s.byteWidth.toNat with
        position := BitVec.ofNat 32 (s.position.toNat + s.byteWidth.toNat)
        rleValue := rleValueOf (s.readBytes s.position.toNat s.byteWidth.toNat)
        rleRemaining := BitVec.ofNat 32 c.toNat
        runState := .inRle } := by
  rw [exec, execRleRun, State.enterRleRun_of_fits hc hf, Attempt.finish, BitVec.ofNat_toNat]

theorem exec_bitpackedRun_of_zero (s : State) : exec (.bitpackedRun 0) s = .next (s.raise .emptyRun) := by
  rw [exec, execBitpackedRun, State.enterBitpackedRun_of_zero, Attempt.finish]

/-- BITPACKED_RUN enters the run whatever bytes are left: it reads no group (42_run_header R145). -/
theorem exec_bitpackedRun_of_count {s : State} {c : BitVec 31} (hc : c ≠ 0) :
    exec (.bitpackedRun c) s = .next
      { s with bpGroupsRemaining := BitVec.ofNat 32 c.toNat, bpGroupPos := 0, runState := .inBitpacked } := by
  rw [exec, execBitpackedRun, State.enterBitpackedRun_of_count hc, Attempt.finish, BitVec.ofNat_toNat]

/-- Settles O33: the three branches of RLE_RUN; a run of one value is left by the NEXT that serves it. -/
theorem rleRunReadsValue : Obligations.RleRunReadsValue := by
  unfold Obligations.RleRunReadsValue
  refine fun s c => ⟨decodeHeader_two_mul c, fun hc hf => exec_rleRun_of_fits hc hf, ?empty,
    fun hc hf => exec_rleRun_of_short hc hf, ?one⟩
  case empty =>
    rintro rfl
    exact exec_rleRun_of_zero s
  case one =>
    rintro ⟨hcfg, herr⟩ rfl hf
    exact ⟨_, _, exec_rleRun_of_fits (by decide) hf,
      nextServesRleValue _ ⟨hcfg, herr⟩ rfl (ofNat_toNat_ne_zero (by decide)), rfl, rfl, rfl, BitVec.sub_self (1 : Word)⟩

/-- Settles O34: the two branches of BITPACKED_RUN; the NEXT after it finds no group open and reads the first. -/
theorem bitpackedRunEnters : Obligations.BitpackedRunEnters := by
  unfold Obligations.BitpackedRunEnters
  refine fun s c => ⟨decodeHeader_two_mul_add_one c, exec_bitpackedRun_of_count, ?empty, ?firstGroup⟩
  case empty =>
    rintro rfl
    exact exec_bitpackedRun_of_zero s
  case firstGroup =>
    rintro ⟨hcfg, herr⟩ hc hf
    obtain ⟨-, hgroup, -⟩ := nextInBitpackedRun
      { s with bpGroupsRemaining := BitVec.ofNat 32 c.toNat, bpGroupPos := 0, runState := .inBitpacked } ⟨hcfg, herr⟩ rfl
    exact ⟨_, _, exec_bitpackedRun_of_count hc, hgroup rfl (ofNat_toNat_ne_zero hc) hf, rfl, rfl, rfl,
      position_toNat hf⟩

/-! ## The errors of a header in NEXT -/

/-- What ReadRunHeader raises, NEXT raises from the state it leaves (42_run_header R147). -/
theorem exec_next_of_header_raised {s u : State} {k : ErrKind} (hR : s.Ready) (hr : s.runState = .needsHeader)
    (e : s.readRunHeader = .raised k u) : exec .next s = .next (u.raise k) := by
  rw [exec_next_of_header hR hr, e, Attempt.finish]

/-- Consuming a header that was read does not wrap `position` (42_run_header R143). -/
theorem State.afterHeader_position_toNat {s : State} {h : Word} {n : Nat}
    (e : decodeVarint s.headerBytes = .value h n) :
    (s.afterHeader n).position.toNat = s.position.toNat + n :=
  let ⟨_, _, hfit⟩ := State.header_fits e
  position_toNat hfit

/-- Count 0 raises EmptyRun under either tag, with the header consumed (42_run_header R144, R145). -/
theorem State.readRunHeader_of_empty {s : State} {h : Word} {n : Nat} (e : decodeVarint s.headerBytes = .value h n)
    (hz : h.toNat / 2 = 0) : s.readRunHeader = .raised .emptyRun (s.afterHeader n) := by
  have hc := (headerCount_eq_zero h).mpr hz
  obtain ⟨-, hd⟩ | ⟨-, hd⟩ := decodeHeader_cases h
  · rw [State.readRunHeader_of_rle e hd, hc, State.enterRleRun_of_zero]
  · rw [State.readRunHeader_of_bitpacked e hd, hc, State.enterBitpackedRun_of_zero]

/-- An RLE header without its value raises Truncated with the header consumed (42_run_header R144). -/
theorem State.readRunHeader_of_short_value {s : State} {h : Word} {n : Nat}
    (e : decodeVarint s.headerBytes = .value h n) (hz : h.toNat / 2 ≠ 0) (ht : h.toNat % 2 = 0)
    (hf : s.bufLen.toNat < s.position.toNat + n + s.byteWidth.toNat) :
    s.readRunHeader = .raised .truncated (s.afterHeader n) := by
  rw [← State.afterHeader_position_toNat e] at hf
  rw [State.readRunHeader_of_rle e (decodeHeader_of_even ht),
    State.enterRleRun_of_short (mt (headerCount_eq_zero h).mp hz) hf]

/-- A bit-packed header enters the run before its first group is found cut short (42_run_header R145, R148). -/
theorem exec_next_of_short_first_group {s : State} {h : Word} {n : Nat} (hR : s.Ready)
    (hr : s.runState = .needsHeader) (e : decodeVarint s.headerBytes = .value h n) (hz : h.toNat / 2 ≠ 0)
    (ht : h.toNat % 2 = 1) (hf : s.bufLen.toNat < s.position.toNat + n + s.bitWidth.toNat) :
    exec .next s = .next (State.raise .truncated
      { s.afterHeader n with
        bpGroupsRemaining := BitVec.ofNat 32 (h.toNat / 2), bpGroupPos := 0, runState := .inBitpacked }) := by
  have hc : h.extractLsb' 1 31 ≠ 0 := mt (headerCount_eq_zero h).mp hz
  rw [← State.afterHeader_position_toNat e] at hf
  rw [exec_next_of_header hR hr, State.readRunHeader_of_bitpacked e (decodeHeader_of_odd ht),
    State.enterBitpackedRun_of_count hc, Attempt.finish, headerCount_zeroExtend,
    State.serve_of_short_group rfl rfl (ofNat_count_ne_zero hz) hf]

/-- Settles O28: the errors of ReadRunHeader in its own order, then the first group of a bit-packed run, which NEXT
reads only after the run is entered. -/
theorem headerErrorsAndTheirStates : Obligations.HeaderErrorsAndTheirStates := by
  unfold Obligations.HeaderErrorsAndTheirStates
  refine fun s hR hr => ⟨fun n e => exec_next_of_header_raised hR hr (State.readRunHeader_of_truncated e),
    fun n e => exec_next_of_header_raised hR hr (State.readRunHeader_of_malformed e), fun h n e => ?_⟩
  split_ifs with hz ht
  · exact exec_next_of_header_raised hR hr (State.readRunHeader_of_empty e hz)
  · exact fun hf => exec_next_of_header_raised hR hr (State.readRunHeader_of_short_value e hz ht hf)
  · exact exec_next_of_short_first_group hR hr e hz (Nat.mod_two_ne_zero.mp ht)

end Sys2Proof.Machine
end

section
/-! SUPPORT. The lanes of a bit-packed group bit by bit, in range, and at the byte-aligned widths
(spec/43_bitpacked_group.md R163, R164, R166). -/

namespace Sys2Proof.Machine

/-! ## Bits of little-endian bytes -/

/-- Bit `i` of little-endian bytes is bit `i mod 8` of byte `i div 8` (20_memory R54). -/
theorem leNat_testBit (bs : List Byte) (i : Nat) : (leNat bs).testBit i = (bs.getD (i / 8) 0).getLsbD (i % 8) := by
  induction bs generalizing i with
  | nil => simp [leNat]
  | cons b bs ih =>
    rw [leNat, Nat.add_comm, show 256 = 2 ^ 8 from rfl, Nat.testBit_two_pow_mul_add _ b.isLt]
    split_ifs with hi
    · rw [Nat.div_eq_of_lt hi, Nat.mod_eq_of_lt hi, List.getD_cons_zero, BitVec.getLsbD]
    · obtain ⟨j, rfl⟩ := Nat.exists_eq_add_of_le' (Nat.le_of_not_lt hi)
      rw [Nat.add_sub_cancel, ih, Nat.add_div_right _ (by decide), Nat.add_mod_right, List.getD_cons_succ]

theorem rleValueOf_getLsbD (bs : List Byte) {b : Nat} (hb : b < 32) :
    (rleValueOf bs).getLsbD b = (bs.getD (b / 8) 0).getLsbD (b % 8) := by
  rw [rleValueOf, BitVec.getLsbD_ofNat, leNat_testBit, decide_eq_true hb, Bool.true_and]

/-- Bit `b` of lane `k` is bit `kW + b` of the group, and 0 from W on (43_bitpacked_group R163). -/
theorem unpackLane_getLsbD (w : Nat) (bs : List Byte) (k : Nat) {b : Nat} (hb : b < 32) :
    (unpackLane w bs k).getLsbD b =
      (decide (b < w) && (bs.getD ((k * w + b) / 8) 0).getLsbD ((k * w + b) % 8)) := by
  rw [unpackLane, BitVec.getLsbD_ofNat, decide_eq_true hb, Bool.true_and, Nat.testBit_mod_two_pow,
    Nat.testBit_shiftRight, leNat_testBit]

/-- Settles O36: a lane's bits are the group's bits from `kW` on, cut off at W. -/
theorem unpackBitByBit : Obligations.UnpackBitByBit := by
  unfold Obligations.UnpackBitByBit
  intro w g k b _ _ _ hb
  rw [unpack_get, unpackLane_getLsbD w g k hb]

/-- Settles O37: a lane is a remainder modulo `2 ^ W`. -/
theorem unpackedLaneInRange : Obligations.UnpackedLaneInRange := by
  unfold Obligations.UnpackedLaneInRange
  intro w g k _
  rw [unpack_get]
  exact Nat.le_sub_one_of_lt (unpackLane_toNat_lt w g k)

/-! ## The byte-aligned widths and W = 1 -/

theorem getD_map_range {α : Type} (f : Nat → α) (n i : Nat) (d : α) :
    ((List.range n).map f).getD i d = if i < n then f i else d := by
  split_ifs with hi <;> simp [hi]

/-- At the width of `n` whole bytes, lane `k` is the value of the bytes `nk` to `nk + n - 1` (43_bitpacked_group
R166). -/
theorem unpackLane_of_bytes (n : Nat) (bs : List Byte) (k : Nat) :
    unpackLane (8 * n) bs k = rleValueOf ((List.range n).map fun j => bs.getD (n * k + j) 0) := by
  refine BitVec.eq_of_getLsbD_eq fun b hb => ?_
  have hdiv : (k * (8 * n) + b) / 8 = n * k + b / 8 := by
    rw [Nat.mul_left_comm, Nat.mul_add_div (by decide), Nat.mul_comm k n]
  have hmod : (k * (8 * n) + b) % 8 = b % 8 := by rw [Nat.mul_left_comm, Nat.mul_add_mod]
  rw [unpackLane_getLsbD _ _ _ hb, rleValueOf_getLsbD _ hb, hdiv, hmod, getD_map_range]
  split_ifs with hn
  · rw [decide_eq_true (by omega), Bool.true_and]
  · rw [decide_eq_false (by omega), Bool.false_and, BitVec.ofNat_eq_ofNat, BitVec.getLsbD_zero]

/-- At W = 1, lane `k` is bit `k` of the group's byte (43_bitpacked_group R166). -/
theorem unpackLane_one_toNat (bs : List Byte) {k : Nat} (hk : k < 8) :
    (unpackLane 1 bs k).toNat = if (bs.getD 0 0).getLsbD k then 1 else 0 := by
  have hbit : (leNat bs).testBit k = (bs.getD 0 0).getLsbD k := by
    rw [leNat_testBit, Nat.div_eq_of_lt hk, Nat.mod_eq_of_lt hk]
  rw [← hbit, unpackLane, BitVec.toNat_ofNat, Nat.mul_one, Nat.shiftRight_eq_div_pow, Nat.pow_one,
    ← Nat.toNat_testBit]
  cases (leNat bs).testBit k <;> rfl

/-- Settles O38: four instances of the lane at `n` whole bytes, and the lane of one bit. -/
theorem unpackAlignedWidths : Obligations.UnpackAlignedWidths := by
  unfold Obligations.UnpackAlignedWidths
  intro g k
  simp only [unpack_get]
  refine ⟨fun _ => ?oneByte, fun _ => unpackLane_of_bytes 2 g k, fun _ => unpackLane_of_bytes 3 g k,
    fun _ => unpackLane_of_bytes 4 g k, fun _ => unpackLane_one_toNat g k.isLt⟩
  case oneByte => simpa using unpackLane_of_bytes 1 g k

end Sys2Proof.Machine
end

section
/-! SUPPORT. The RLE value byte by byte, least significant first (spec/44_rle_value.md R182). -/

namespace Sys2Proof.Machine

@[simp] theorem rleValueOf_nil : rleValueOf [] = 0 := rfl

/-- The first byte is the low one, zero-extended, and the value of the bytes after it stands 8 bits up (44_rle_value
R182). -/
theorem rleValueOf_cons (b : Byte) (bs : List Byte) :
    rleValueOf (b :: bs) = b.zeroExtend 32 ||| rleValueOf bs <<< 8 := by
  refine BitVec.eq_of_getLsbD_eq fun i hi => ?_
  rw [rleValueOf_getLsbD _ hi, BitVec.getLsbD_or, BitVec.getLsbD_shiftLeft]
  obtain hlow | ⟨j, rfl⟩ := (Nat.lt_or_ge i 8).imp_right Nat.exists_eq_add_of_le'
  · simp [hi, hlow, Nat.div_eq_of_lt, Nat.mod_eq_of_lt]
  · simp [hi, rleValueOf_getLsbD bs (Nat.lt_of_add_right_lt hi)]

/-- Settles O35: the value of each list unrolls byte by byte, and the shifts by 8 add up to 16 and 24. -/
theorem rleValueOfBytes : Obligations.RleValueOfBytes := by
  unfold Obligations.RleValueOfBytes
  intro v0 v1 v2 v3
  simp [rleValueOf_cons, BitVec.shiftLeft_or_distrib, ← BitVec.shiftLeft_add, BitVec.or_assoc]

end Sys2Proof.Machine
end

section
/-! SUPPORT. Errors (spec/60_exceptions.md): the codes, what the prologue answers in `cfg_state` 3 and in FATAL, which
commands move the latch, and the causes of the three errors a decoding NEXT raises. -/

namespace Sys2Proof.Machine

/-! ## The codes of the raised kinds (60_exceptions R201) -/

@[simp] theorem ErrKind.code_truncated : ErrKind.truncated.code = 1 := rfl
@[simp] theorem ErrKind.code_emptyRun : ErrKind.emptyRun.code = 2 := rfl
@[simp] theorem ErrKind.code_malformedVarint : ErrKind.malformedVarint.code = 3 := rfl
@[simp] theorem ErrKind.code_invalidConfiguration : ErrKind.invalidConfiguration.code = 4 := rfl
@[simp] theorem ErrKind.code_internalFault : ErrKind.internalFault.code = 5 := rfl

theorem ErrKind.code_range (k : ErrKind) : 1 ≤ k.code.toNat ∧ k.code.toNat ≤ 5 := by
  cases k <;> decide

/-- No raised kind is IllegalCommand. -/
theorem ErrKind.code_ne_illegal (k : ErrKind) : k.code ≠ 6 := by
  have := k.code_range
  bv_omega

theorem ErrKind.entersFatal_iff (k : ErrKind) :
    k.entersFatal = true ↔ k = .invalidConfiguration ∨ k = .internalFault := by
  cases k <;> simp [ErrKind.entersFatal]

/-! ## The prologue (60_exceptions R206, R207) -/

/-- A due command in `cfg_state` 3 raises InternalFault, whatever its opcode (60_exceptions R207). -/
theorem step_of_due_encoding3 {s : State} {w : BitVec 66} (hd : s.Due w) (hc : s.cfgState = .encoding3) :
    step s = .next (s.answering.raise .internalFault) := by
  obtain ⟨body, hbody⟩ := runCommand_eq_prologue w
  rw [step_of_due hd, hbody, State.prologue_of_encoding3 (s := s.answering) hc]

/-- Settles O18: every command word is the prologue and a body, and the prologue ends it in both states. -/
theorem corruptConfigStateFaults : Obligations.CorruptConfigStateFaults := by
  unfold Obligations.CorruptConfigStateFaults
  exact fun s w hd => ⟨step_of_due_encoding3 hd, step_of_due_fatal hd⟩

/-- Settles O17: the fatal kinds by their codes, the prologue's answer, the invariant's latch, and what leaves FATAL. -/
theorem fatalAnswersLatchedCode : Obligations.FatalAnswersLatchedCode := by
  unfold Obligations.FatalAnswersLatchedCode
  refine ⟨fun s k hk => ⟨?fatal, rfl, ?code⟩, fun s w => step_of_due_fatal, fun s hi => ?latch,
    fun s t => step_fatal_of_fatal⟩
  case fatal => rw [State.raise_cfgState, if_pos (k.entersFatal_iff.mpr hk)]
  case code => exact hk.imp (congrArg ErrKind.code) (congrArg ErrKind.code)
  case latch =>
    obtain ⟨-, -, hfatal⟩ := hi.latch
    exact hfatal

/-! ## IllegalCommand is never latched (60_exceptions R205) -/

/-- If the command that leads from `s` to `t` answers IllegalCommand, it leaves the latch alone. -/
def State.IllegalKeepsLatch (s t : State) : Prop := t.rspStatus = 6 → t.errCode = s.errCode

/-- A response alone leaves the latch as it was. -/
theorem State.respond_illegalKeepsLatch (st : BitVec 3) (v : Word) (s : State) :
    s.IllegalKeepsLatch (s.respond st v) := fun _ => rfl

/-- What is raised is another code than IllegalCommand. -/
theorem State.raise_rspStatus_ne_illegal (k : ErrKind) (s : State) : (s.raise k).rspStatus ≠ 6 := k.code_ne_illegal

/-- The case on `run_state` answers OK or raises. -/
theorem State.serve_rspStatus_ne_illegal (s : State) : s.serve.rspStatus ≠ 6 := by
  by_cases live : s.runState = .inRle ∧ s.rleRemaining ≠ 0 ∨
      s.runState = .inBitpacked ∧ (s.bpGroupsRemaining ≠ 0 ∨ s.bpGroupPos ≠ 0)
  · obtain ⟨-, er⟩ | ⟨-, -, er⟩ | ⟨-, -, -, -, er⟩ | ⟨-, -, -, -, er⟩ := State.serve_cases live <;> simp [er]
  · rw [State.serve_of_broken live]
    exact s.raise_rspStatus_ne_illegal _

/-- A part of NEXT that raises does not answer IllegalCommand; one that goes on answers what comes after it. -/
theorem Attempt.finish_rspStatus_ne_illegal {α : Type} {go : α → State → State}
    (hgo : ∀ a u, (go a u).rspStatus ≠ 6) (r : Attempt α) : (r.finish go).rspStatus ≠ 6 := by
  cases r with
  | ok a u => exact hgo a u
  | raised k u => exact u.raise_rspStatus_ne_illegal k

theorem State.nextBody_illegalKeepsLatch (s : State) : s.IllegalKeepsLatch s.nextBody := by
  unfold State.nextBody
  split_ifs
  · exact s.respond_illegalKeepsLatch _ _
  · exact s.respond_illegalKeepsLatch _ _
  · exact fun h6 => absurd h6 (Attempt.finish_rspStatus_ne_illegal (fun _ u => u.serve_rspStatus_ne_illegal) _)
  · exact fun h6 => absurd h6 s.serve_rspStatus_ne_illegal

theorem State.initBody_illegalKeepsLatch (base len : Word) (s : State) : s.IllegalKeepsLatch (s.initBody base len) := by
  unfold State.initBody
  split_ifs
  · exact s.respond_illegalKeepsLatch _ _
  · simp [State.IllegalKeepsLatch, Status.code]
  · exact s.respond_illegalKeepsLatch _ _

/-- CONFIG answers OK or raises. -/
theorem State.configBody_illegalKeepsLatch (w : Word) (s : State) : s.IllegalKeepsLatch (s.configBody w) := by
  unfold State.configBody
  split_ifs
  · simp [State.IllegalKeepsLatch, Status.code]
  · exact fun h6 => absurd h6 (s.raise_rspStatus_ne_illegal _)

theorem State.prologue_illegalKeepsLatch {body : State → State} (h : ∀ u : State, u.IllegalKeepsLatch (body u))
    (s : State) : s.IllegalKeepsLatch (s.prologue body) := by
  unfold State.prologue
  split
  · exact fun h6 => absurd h6 (s.raise_rspStatus_ne_illegal _)
  · exact s.respond_illegalKeepsLatch _ _
  · exact h s
  · exact h s

/-- No command word writes the latch with an answer of IllegalCommand, from any state. -/
theorem runCommand_illegalKeepsLatch {w : BitVec 66} {s t : State} (h : runCommand w s = .next t) :
    s.IllegalKeepsLatch t := by
  obtain hop | hop | hop | hop := cmdOp_cases w
  · rw [runCommand_next hop] at h
    exact Host.Outcome.next.inj h ▸ State.prologue_illegalKeepsLatch State.nextBody_illegalKeepsLatch s
  · rw [runCommand_init hop] at h
    exact Host.Outcome.next.inj h ▸ State.prologue_illegalKeepsLatch (State.initBody_illegalKeepsLatch _ _) s
  · rw [runCommand_config hop] at h
    exact Host.Outcome.next.inj h ▸ State.prologue_illegalKeepsLatch (State.configBody_illegalKeepsLatch _) s
  · rw [runCommand_reserved hop] at h
    exact Host.Outcome.next.inj h ▸
      State.prologue_illegalKeepsLatch (fun u => u.respond_illegalKeepsLatch Status.illegalCommand.code 0) s

/-! ## A latched error (60_exceptions R205) -/

/-- NEXT repeats a latched error and does nothing else. -/
theorem exec_next_of_latched {s : State} (hc : s.cfgState = .configured) (he : s.errCode ≠ 0) :
    exec .next s = .next (s.respond s.errCode 0) := by
  rw [exec, execNext, State.prologue_of_configured hc, State.nextBody, if_neg (by simp [hc]), if_pos he]

/-- Settles O19: `raise` written out, NEXT on a latched error, the restart of INIT and CONFIG, and the answers of
IllegalCommand. -/
theorem errorLatchIsSticky : Obligations.ErrorLatchIsSticky := by
  unfold Obligations.ErrorLatchIsSticky
  refine ⟨fun s k => ⟨?raised, k.code_range⟩, fun s => exec_next_of_latched,
    fun s base len hc hw => ⟨_, exec_init_of_legal hc hw, rfl⟩,
    fun s w hc h1 h2 => ⟨_, exec_config_of_legal (.inr hc) h1 h2, rfl⟩, fun s t w hd hs => ?illegal⟩
  case raised => simp only [State.raise, State.respond, ErrKind.entersFatal_iff]
  case illegal => exact runCommand_illegalKeepsLatch (s := s.answering) (step_of_due hd ▸ hs)

/-! ## Which header bytes are cut short, and which are malformed -/

/-- The three ways at most five bytes can go: bit 7 set in all of them, too few or all five, or a last byte with bit 7
clear (30_encoding R78). -/
theorem decodeVarint_cases {bs : List Byte} (hlen : bs.length ≤ 5) :
    ((∀ b ∈ bs, 128 ≤ b.toNat) ∧ bs.length < 5 ∧ decodeVarint bs = .truncated bs.length) ∨
    ((∀ b ∈ bs, 128 ≤ b.toNat) ∧ bs.length = 5 ∧ decodeVarint bs = .malformed 5) ∨
    ∃ pre last rest, bs = pre ++ last :: rest ∧ (∀ b ∈ pre, 128 ≤ b.toNat) ∧ last.toNat < 128 ∧
      decodeVarint bs = if varintSum (pre ++ [last]) ≤ 2 ^ 32 - 1 then
        .value (BitVec.ofNat 32 (varintSum (pre ++ [last]))) (pre.length + 1) else .malformed (pre.length + 1) := by
  cases hfind : bs.find? (fun b => b.toNat < 128) with
  | none =>
    have hset : ∀ b ∈ bs, 128 ≤ b.toNat := by simpa using hfind
    obtain h4 | h5 := Nat.lt_or_eq_of_le hlen
    · exact .inl ⟨hset, h4, decodeVarint_cut (by omega) hset⟩
    · exact .inr (.inl ⟨hset, h5, by simpa using decodeVarint_tooLong h5 hset []⟩)
  | some last =>
    obtain ⟨hl, pre, rest, rfl, hset⟩ := List.find?_eq_some_iff_append.mp hfind
    have hset' : ∀ b ∈ pre, 128 ≤ b.toNat := by simpa using hset
    have hlast : last.toNat < 128 := by simpa using hl
    have hpre : pre.length ≤ 4 := by simp at hlen; omega
    exact .inr (.inr ⟨pre, last, rest, rfl, hset', hlast, decodeVarint_last hpre hset' hlast rest⟩)

/-- A header is cut short when fewer than five bytes are left and none of them ends it (60_exceptions R202 (a)). -/
theorem State.header_truncated_iff (s : State) :
    (∃ n, decodeVarint s.headerBytes = .truncated n) ↔
      s.bufLen.toNat - s.position.toNat < 5 ∧ ∀ b ∈ s.headerBytes, 128 ≤ b.toNat := by
  have hlen := s.headerBytes_length
  constructor
  · rintro ⟨n, e⟩
    obtain ⟨hset, h4, -⟩ | ⟨-, -, e'⟩ | ⟨pre, last, rest, -, -, -, e'⟩ :=
      decodeVarint_cases (bs := s.headerBytes) (by omega)
    · exact ⟨by omega, hset⟩
    · simp [e] at e'
    · rw [e] at e'
      split_ifs at e'
  · rintro ⟨h4, hset⟩
    exact ⟨_, decodeVarint_cut (by omega) hset⟩

/-- A header is malformed when five bytes with bit 7 set stand there, or its value is no word (60_exceptions R204). -/
theorem State.header_malformed_iff (s : State) :
    (∃ n, decodeVarint s.headerBytes = .malformed n) ↔
      (5 ≤ s.bufLen.toNat - s.position.toNat ∧ ∀ b ∈ s.headerBytes, 128 ≤ b.toNat) ∨
        ∃ bs last rest, s.headerBytes = bs ++ last :: rest ∧ (∀ b ∈ bs, 128 ≤ b.toNat) ∧ last.toNat < 128 ∧
          2 ^ 32 - 1 < varintSum (bs ++ [last]) := by
  have hlen := s.headerBytes_length
  constructor
  · rintro ⟨n, e⟩
    obtain ⟨-, -, e'⟩ | ⟨hset, h5, -⟩ | ⟨pre, last, rest, hbs, hset, hl, e'⟩ :=
      decodeVarint_cases (bs := s.headerBytes) (by omega)
    · simp [e] at e'
    · exact .inl ⟨by omega, hset⟩
    · rw [e] at e'
      split_ifs at e' with hsum
      exact .inr ⟨pre, last, rest, hbs, hset, hl, by omega⟩
  · rintro (⟨h5, hset⟩ | ⟨pre, last, rest, hbs, hset, hl, hsum⟩)
    · exact ⟨5, by simpa using decodeVarint_tooLong (by omega) hset []⟩
    · have hpre : pre.length ≤ 4 := by simp [hbs] at hlen; omega
      exact ⟨_, by rw [hbs, decodeVarint_last hpre hset hl rest, if_neg (by omega)]⟩

/-! ## The causes of a decoding NEXT's errors (60_exceptions R202 to R204) -/

/-- Truncated: the header, its value, its first group or a later group is cut short (60_exceptions R202). -/
theorem NextOutcome.truncated_iff {s t : State} (ho : NextOutcome s t) :
    t.rspStatus = 1 ↔
      (s.runState = .needsHeader ∧
        ((∃ n, decodeVarint s.headerBytes = .truncated n) ∨
          ∃ h n, decodeVarint s.headerBytes = .value h n ∧ h.toNat / 2 ≠ 0 ∧
            s.bufLen.toNat <
              s.position.toNat + n + (if h.toNat % 2 = 1 then s.bitWidth.toNat else s.byteWidth.toNat))) ∨
      (s.runState = .inBitpacked ∧ s.bpGroupPos = 0 ∧ s.bufLen.toNat < s.position.toNat + s.bitWidth.toNat) := by
  cases ho with
  | headerTruncated n hr e | headerMalformed n hr e => simp [hr, e]
  | headerEmpty h n hr e hz => simp [hr, e, hz, -Nat.div_eq_zero_iff]
  | rleShort h n hr e hz ht hf | bitpackedShort h n hr e hz ht hf => simpa [hr, e, ht, hf] using hz
  | rleStart h n hr e hz ht hf | bitpackedStart h n hr e hz ht hf => simp [hr, e, ht, hf]
  | rle hr => simp [hr]
  | lane hr hp => simpa [hr] using fun h0 => absurd h0 hp
  | group hr hp hg hf | groupShort hr hp hg hf => simp [hr, hp, hf]

/-- EmptyRun: the header's count is 0 (60_exceptions R203). -/
theorem NextOutcome.emptyRun_iff {s t : State} (ho : NextOutcome s t) :
    t.rspStatus = 2 ↔ s.runState = .needsHeader ∧ ∃ h n, decodeVarint s.headerBytes = .value h n ∧ h.toNat / 2 = 0 := by
  cases ho with
  | headerTruncated n hr e | headerMalformed n hr e => simp [e]
  | headerEmpty h n hr e hz => simpa [hr, e] using hz
  | rleShort h n hr e hz | bitpackedShort h n hr e hz | rleStart h n hr e hz | bitpackedStart h n hr e hz =>
    simpa [hr, e] using hz
  | rle hr | lane hr | group hr | groupShort hr => simp [hr]

/-- MalformedVarint: the header's varint is no legal one (60_exceptions R204). -/
theorem NextOutcome.malformedVarint_iff {s t : State} (ho : NextOutcome s t) :
    t.rspStatus = 3 ↔ s.runState = .needsHeader ∧ ∃ n, decodeVarint s.headerBytes = .malformed n := by
  cases ho with
  | headerMalformed n hr e => simp [hr, e]
  | headerTruncated n hr e | headerEmpty h n hr e | rleShort h n hr e | bitpackedShort h n hr e | rleStart h n hr e
  | bitpackedStart h n hr e => simp [e]
  | rle hr | lane hr | group hr | groupShort hr => simp [hr]

/-- Settles O20: the outcomes of a NEXT by their status, and the header's bytes by how their varint ends. -/
theorem nextErrorCauses : Obligations.NextErrorCauses := by
  unfold Obligations.NextErrorCauses
  intro s t hi hR hs
  obtain ⟨u, hu, ho⟩ := exec_next_outcome hR hi
  obtain rfl : u = t := Host.Outcome.next.inj (hu.symm.trans hs)
  rw [← State.header_truncated_iff, ← State.header_malformed_iff]
  exact ⟨ho.truncated_iff, ho.emptyRun_iff, ho.malformedVarint_iff⟩

end Sys2Proof.Machine
end

section
/-! SUPPORT. Reset (spec/70_reset_and_hazards.md part 1): the registers it leaves, and the exact step it makes. -/

namespace Sys2Proof.Machine

/-- Each of the eight lanes is 0 after reset. -/
@[simp] theorem State.resetBlock_lane (s : State) (k : BitVec 3) : s.resetBlock.lane k = 0 := by
  rw [State.lane, State.resetBlock_bpGroup]
  generalize (⟨k.toNat, k.isLt⟩ : Fin 8) = i
  fin_cases i <;> rfl

/-- Reset gives every register its value of 10_state R20, whatever the state before it. -/
theorem State.resetBlock_registersAtReset (s : State) : s.resetBlock.RegistersAtReset := by
  simp [State.RegistersAtReset]

theorem State.hostTurn_reset {s : State} {rest : List HostMove} (h : s.host = .reset :: rest) :
    s.hostTurn = State.resetBlock { s with host := rest } := by
  simp only [State.hostTurn, h]

/-- The exact step of a reset in which no command is answered (70_reset_and_hazards R230). -/
theorem step_reset {s : State} {rest : List HostMove} (hn : s.NotDue) (hh : s.host = .reset :: rest) :
    step s = .next (State.resetBlock { s.ticked with host := rest }) := by
  rw [step_of_notDue hn, State.hostTurn_reset (s := s.ticked) hh]

/-- Settles O8: the step is `resetBlock`, which keeps memory and drops the command; FATAL lasts through the rest. -/
theorem resetFromAnyState : Obligations.ResetFromAnyState := by
  unfold Obligations.ResetFromAnyState
  refine ⟨?reset, fun s t => step_fatal_of_fatal⟩
  rintro s ⟨hn, rest, hh⟩
  exact ⟨_, step_reset hn hh, State.resetBlock_registersAtReset _, rfl, rfl, rfl, rfl⟩

end Sys2Proof.Machine
end

section
/-! SUPPORT. The round trips of the encodings: a header word as tag and count, and its minimal varint
(spec/30_encoding.md R77 to R85). -/

namespace Sys2Proof.Machine

/-- Settles O1: the worked words are closed, and the decoders compute on them. -/
theorem decodesWorkedWords : Obligations.DecodesWorkedWords := by
  unfold Obligations.DecodesWorkedWords
  decide

/-! ## A header word is its count and its tag -/

/-- The tag is bit 0 and the count stands above it (30_encoding R80). -/
theorem headerWord_eq (tag : BitVec 1) (c : BitVec 31) :
    headerWord tag c = BitVec.ofNat 32 (c.toNat <<< 1 ||| tag.toNat) := by
  apply BitVec.eq_of_toNat_eq
  rw [headerWord, BitVec.toNat_append, BitVec.toNat_ofNat, ← Nat.shiftLeft_add_eq_or_of_lt tag.isLt]
  have := c.isLt
  have := tag.isLt
  omega

theorem headerWord_zero (c : BitVec 31) : headerWord 0 c = BitVec.ofNat 32 (c.toNat <<< 1) := by
  rw [headerWord_eq, BitVec.ofNat_eq_ofNat, BitVec.toNat_ofNat, Nat.zero_mod, Nat.or_zero]

theorem headerWord_one (c : BitVec 31) : headerWord 1 c = BitVec.ofNat 32 (c.toNat <<< 1 ||| 1) := headerWord_eq 1 c

theorem decodeHeader_headerWord_zero (c : BitVec 31) : decodeHeader (headerWord 0 c) = .rleRun c := by
  rw [headerWord_zero, Nat.shiftLeft_eq, Nat.mul_comm]
  exact decodeHeader_two_mul c

theorem decodeHeader_headerWord_one (c : BitVec 31) : decodeHeader (headerWord 1 c) = .bitpackedRun c := by
  rw [headerWord_one, ← Nat.shiftLeft_add_eq_or_of_lt Nat.one_lt_two, Nat.shiftLeft_eq, Nat.mul_comm]
  exact decodeHeader_two_mul_add_one c

/-- The count field as a number is the header word's upper half (30_encoding R80). -/
theorem headerCount_eq_ofNat (h : Word) : h.extractLsb' 1 31 = BitVec.ofNat 31 (h.toNat / 2) := by
  rw [← headerCount_toNat, BitVec.ofNat_toNat, BitVec.setWidth_eq]

/-- Settles O5: the word's two parts, each way, and the count as the only constraint on a run header. -/
theorem headerTagAndCount : Obligations.HeaderTagAndCount := by
  unfold Obligations.HeaderTagAndCount
  refine ⟨fun h => ?decodes, fun c => ⟨?odd, ?even, ?bitpacked, ?rle⟩⟩
  case decodes =>
    rw [← headerCount_eq_ofNat]
    split_ifs with ht
    · exact decodeHeader_of_odd ht
    · exact decodeHeader_of_even (Nat.mod_two_ne_one.mp ht)
  case odd => rw [encode, headerWord_one]
  case even => rw [encode, headerWord_zero]
  case bitpacked => simp [Instr.wellFormed, ← BitVec.toNat_inj]
  case rle => simp [Instr.wellFormed, ← BitVec.toNat_inj]

/-! ## The minimal varint -/

/-- `bs` and then `last` are the shortest varint of `x`: only `last` has bit 7 clear, the groups add up to `x`, and a
number of at most `k + 1` groups has at most `k` bytes before its last (30_encoding R78, R85). -/
structure IsMinimalVarint (x : Nat) (bs : List Byte) (last : Byte) : Prop where
  continues : ∀ b ∈ bs, 128 ≤ b.toNat
  ends : last.toNat < 128
  sum : varintSum (bs ++ [last]) = x
  shortest : ∀ k, x < 128 ^ (k + 1) → bs.length ≤ k

theorem isMinimalVarint_singleton {x : Nat} (hx : x < 128) : IsMinimalVarint x [] (BitVec.ofNat 8 x) := by
  have hlast : (BitVec.ofNat 8 x).toNat = x := by rw [BitVec.toNat_ofNat]; omega
  exact ⟨by simp, by omega, by rw [List.nil_append, varintSum_singleton (by omega), hlast],
    fun k _ => Nat.zero_le k⟩

theorem IsMinimalVarint.cons {x : Nat} {bs : List Byte} {last : Byte} (hx : 128 ≤ x)
    (h : IsMinimalVarint (x / 128) bs last) : IsMinimalVarint x (BitVec.ofNat 8 (128 + x % 128) :: bs) last := by
  have hbyte : (BitVec.ofNat 8 (128 + x % 128)).toNat = 128 + x % 128 := by rw [BitVec.toNat_ofNat]; omega
  refine ⟨List.forall_mem_cons.mpr ⟨by omega, h.continues⟩, h.ends, ?sum, fun k hk => ?shortest⟩
  case sum =>
    rw [List.cons_append, varintSum, h.sum, hbyte]
    omega
  case shortest =>
    cases k with
    | zero => omega
    | succ k => exact Nat.succ_le_succ (h.shortest k (Nat.div_lt_of_lt_mul (by rwa [Nat.pow_succ'] at hk)))

/-- The encoder gives the minimal varint of every number its bytes can hold. -/
theorem encodeVarintFrom_isMinimalVarint (fuel : Nat) {x : Nat} (hx : x < 128 ^ (fuel + 1)) :
    ∃ bs last, encodeVarintFrom (fuel + 1) x = bs ++ [last] ∧ IsMinimalVarint x bs last := by
  induction fuel generalizing x with
  | zero => exact ⟨[], _, if_pos hx, isMinimalVarint_singleton hx⟩
  | succ fuel ih =>
    by_cases hsmall : x < 128
    · exact ⟨[], _, if_pos hsmall, isMinimalVarint_singleton hsmall⟩
    · obtain ⟨bs, last, he, hmin⟩ := ih (x := x / 128) (Nat.div_lt_of_lt_mul (by rwa [Nat.pow_succ'] at hx))
      refine ⟨_ :: bs, last, ?_, hmin.cons (Nat.le_of_not_lt hsmall)⟩
      rw [encodeVarintFrom, if_neg hsmall, he, List.cons_append]

/-- A word is below `128 ^ 5`: its minimal varint has at most five bytes (30_encoding R78). -/
theorem encodeVarint_isMinimalVarint (h : Word) :
    ∃ bs last, encodeVarint h = bs ++ [last] ∧ bs.length ≤ 4 ∧ IsMinimalVarint h.toNat bs last := by
  have hlt : h.toNat < 128 ^ 5 := h.isLt.trans (by decide)
  obtain ⟨bs, last, he, hmin⟩ := encodeVarintFrom_isMinimalVarint 4 hlt
  exact ⟨bs, last, he, hmin.shortest 4 hlt, hmin⟩

/-- The minimal varint reads back whatever follows it (30_encoding R77, R85). -/
theorem decodeStream_encodeVarint (h : Word) (rest : List Byte) :
    decodeStream (encodeVarint h ++ rest) = .ok (decodeHeader h, rest) := by
  obtain ⟨bs, last, he, hlen, hmin⟩ := encodeVarint_isMinimalVarint h
  have hread : decodeVarint (encodeVarint h ++ rest) = .value h (bs ++ [last]).length := by
    rw [he, List.append_assoc, List.singleton_append, decodeVarint_last hlen hmin.continues hmin.ends, hmin.sum,
      if_pos (Nat.le_sub_one_of_lt h.isLt), BitVec.ofNat_toNat, BitVec.setWidth_eq, List.length_append,
      List.length_singleton]
  rw [decodeStream, hread, he]
  simp only [List.drop_left]

/-- What a scan gathers up to byte `n` has `n` groups of 7 bits. -/
theorem scanVarint_value_lt {fuel k h : Nat} {bs : List Byte} {v : Word} {n : Nat} (hh : h < 2 ^ (7 * k))
    (e : scanVarint fuel k h bs = .value v n) : v.toNat < 2 ^ (7 * n) := by
  induction fuel generalizing k h bs with
  | zero => simp [scanVarint] at e
  | succ fuel ih =>
    cases bs with
    | nil => simp [scanVarint] at e
    | cons b bs =>
      have hgroup : (b.toNat % 128) <<< (7 * k) < 2 ^ (7 + 7 * k) := Nat.shiftLeft_lt (Nat.mod_lt _ (by decide))
      have hnext : h ||| (b.toNat % 128) <<< (7 * k) < 2 ^ (7 * (k + 1)) := by
        rw [Nat.mul_succ, Nat.add_comm]
        exact Nat.or_lt_two_pow (hh.trans_le (Nat.pow_le_pow_right (by decide) (Nat.le_add_left ..))) hgroup
      obtain hb | hb := Nat.lt_or_ge b.toNat 128
      · rw [scanVarint_last hb] at e
        split_ifs at e
        obtain ⟨rfl, rfl⟩ := VarintResult.value.inj e
        exact (Nat.mod_le _ _).trans_lt hnext
      · rw [scanVarint_continue hb] at e
        exact ih hnext e

/-- Settles O6: the encoder's last byte ends the scan, and a varint of `n` bytes holds no more than `n` groups. -/
theorem minimalVarintReadsBack : Obligations.MinimalVarintReadsBack := by
  unfold Obligations.MinimalVarintReadsBack
  refine fun h => ⟨decodeStream_encodeVarint h, fun bs n e => ?_⟩
  obtain ⟨pre, last, he, -, hmin⟩ := encodeVarint_isMinimalVarint h
  obtain ⟨hn, -⟩ := decodeVarint_value_bounds e
  obtain ⟨k, rfl⟩ := Nat.exists_eq_add_of_le' hn
  have hlt : h.toNat < 2 ^ (7 * (k + 1)) := scanVarint_value_lt (k := 0) (h := 0) (by decide) e
  rw [Nat.pow_mul] at hlt
  rw [he, List.length_append, List.length_singleton]
  exact Nat.succ_le_succ (hmin.shortest k hlt)

/-- A header's minimal varint decodes to its run with no byte left over (30_encoding R77, R85). -/
theorem decode_encodeVarint (h : Word) : decode (.stream (encodeVarint h)) = .ok (decodeHeader h, []) := by
  simpa [decode] using decodeStream_encodeVarint h []

/-- Settles O2: a command word gives its fields back, and a run header's varint its word. -/
theorem decodeOfEncodeIsInstruction : Obligations.DecodeOfEncodeIsInstruction := by
  unfold Obligations.DecodeOfEncodeIsInstruction
  intro i _
  cases i with
  | next => rw [encode, decode, decodeCmd_next (cmdOp_cmdWord ..)]; rfl
  | init base len =>
    rw [encode, decode, decodeCmd_init (cmdOp_cmdWord ..), cmdArg0_cmdWord, cmdArg1_cmdWord]; rfl
  | config w => rw [encode, decode, decodeCmd_config (cmdOp_cmdWord ..), cmdArg0_cmdWord]; rfl
  | rleRun c => rw [encode, decode_encodeVarint, decodeHeader_headerWord_zero]
  | bitpackedRun c => rw [encode, decode_encodeVarint, decodeHeader_headerWord_one]

end Sys2Proof.Machine
end

section
/-! SUPPORT. The invariant (spec/10_state.md R31): it holds at reset, and every update a step makes keeps it. -/

namespace Sys2Proof.Machine

/-! ## Reset -/

/-- The registers of reset satisfy every register clause (10_state R20, R31). -/
theorem State.RegistersAtReset.inv {s : State} (h : s.RegistersAtReset) (hst : s.rspStatus ≠ 7)
    (hm : Memory.wf s.mem = true) : s.Inv := by
  obtain ⟨hcfg, hbit, hbyte, hbase, hlen, hpos, hrun, hrle, -, hgroups, hlane, -, herr⟩ := h
  exact {
    positionInBuffer := by simp [hpos]
    windowInSpace := by simp [hbase, hlen]
    unconfigured := fun _ => ⟨hbit, hbyte, hlen, hpos, hrun⟩
    configured := by simp [hcfg]
    inRle := by simp [hrun]
    inBitpacked := by simp [hrun]
    needsHeader := fun _ => hlane
    noOpenGroup := fun _ => hlane
    noEncoding3 := by simp [hcfg, hrun]
    counts := by simp [hrle, hgroups]
    latch := by simp [hcfg, herr]
    values := by simp [hcfg]
    response := hst
    memory := hm }

/-- Settles O7: the reset state is what a reset leaves of itself. -/
theorem resetStateRegisters : Obligations.ResetStateRegisters := by
  unfold Obligations.ResetStateRegisters
  exact ⟨State.resetBlock_registersAtReset State.reset, rfl, rfl⟩

/-- Settles O48: the reset values satisfy every register clause, and no byte is listed. -/
theorem invAtReset : Obligations.InvAtReset := by
  unfold Obligations.InvAtReset
  exact (State.resetBlock_registersAtReset State.reset).inv (by decide) Memory.reset_wf

/-! ## Updates no register clause speaks of -/

theorem State.Inv.respond {s : State} (hi : s.Inv) {st : BitVec 3} (hst : st ≠ 7) (v : Word) : (s.respond st v).Inv :=
  { hi with response := hst }

theorem State.Inv.noteReads {s : State} (hi : s.Inv) (off n : Nat) : (s.noteReads off n).Inv := { hi with }

theorem State.Inv.ticked {s : State} (hi : s.Inv) : s.ticked.Inv := { hi with }

/-- The latch never holds code 7 (10_state R30). -/
theorem State.Inv.errCode_ne_seven {s : State} (hi : s.Inv) : s.errCode ≠ 7 := by
  obtain ⟨hunconf, hconf, hfatal⟩ := hi.latch
  cases hc : s.cfgState with
  | unconfigured => simp [hunconf hc]
  | configured => have := hconf hc; bv_omega
  | fatal => obtain h | h := hfatal hc <;> simp [h]
  | encoding3 => exact absurd hc hi.noEncoding3.1

/-! ## Raising -/

theorem ErrKind.code_ne_seven (k : ErrKind) : k.code ≠ 7 := by
  have := k.code_range
  bv_omega

/-- A kind that enters FATAL latches 4 or 5 (60_exceptions R206). -/
theorem ErrKind.code_of_fatal {k : ErrKind} (hk : k.entersFatal = true) : k.code = 4 ∨ k.code = 5 :=
  (k.entersFatal_iff.mp hk).imp (congrArg ErrKind.code) (congrArg ErrKind.code)

/-- Any other kind latches a data error's code (60_exceptions R201). -/
theorem ErrKind.code_le_three {k : ErrKind} (hk : ¬ k.entersFatal = true) : k.code.toNat ≤ 3 := by
  cases k <;> simp_all [ErrKind.entersFatal]

/-- Raising keeps the invariant where the kind may be raised: a fatal kind anywhere, any other once a width is set. -/
theorem State.Inv.raise {s : State} (hi : s.Inv) {k : ErrKind}
    (hk : k.entersFatal = true ∨ s.cfgState = .configured) : (s.raise k).Inv := by
  obtain ⟨-, hrun⟩ := hi.noEncoding3
  by_cases hf : k.entersFatal = true
  · exact { hi with
      unconfigured := by simp [hf]
      configured := by simp [hf]
      noEncoding3 := ⟨by simp [hf], hrun⟩
      latch := ⟨by simp [hf], by simp [hf], fun _ => k.code_of_fatal hf⟩
      values := by simp [hf]
      response := k.code_ne_seven }
  · have hc := hk.resolve_left hf
    exact { hi with
      unconfigured := by simp [hf, hc]
      configured := fun _ => hi.configured hc
      noEncoding3 := ⟨by simp [hf, hc], hrun⟩
      latch := ⟨by simp [hf, hc], fun _ => k.code_le_three hf, by simp [hf, hc]⟩
      values := fun _ => hi.values hc
      response := k.code_ne_seven }

/-! ## Moving on in a configured block -/

theorem State.Inv.withPosition {s : State} (hi : s.Inv) (hc : s.cfgState = .configured) {p : Word}
    (hp : p.toNat ≤ s.bufLen.toNat) : State.Inv { s with position := p } :=
  { hi with
    positionInBuffer := hp
    unconfigured := by simp [hc] }

/-- Consuming a header that was read stays inside the buffer (42_run_header R143). -/
theorem State.Inv.afterHeader {s : State} (hi : s.Inv) (hc : s.cfgState = .configured) {h : Word} {n : Nat}
    (e : decodeVarint s.headerBytes = .value h n) : (s.afterHeader n).Inv := by
  obtain ⟨-, -, hfit⟩ := State.header_fits e
  exact (hi.noteReads _ _).withPosition hc (by rw [position_toNat hfit]; exact hfit)

/-- No group is open outside a bit-packed run (10_state R31, log 17). -/
theorem State.Inv.no_group {s : State} (hi : s.Inv) (hr : s.runState = .needsHeader ∨ s.runState = .inRle) :
    s.bpGroupPos = 0 := hr.elim hi.needsHeader hi.noOpenGroup

/-- An RLE run with `r` values left, and ended when `r` is 0 (10_state R31, items 4 and 6, and log 17). -/
theorem State.Inv.withRleRun {s : State} (hi : s.Inv) (hc : s.cfgState = .configured) (hp : s.bpGroupPos = 0)
    {v r : Word} (hv : v.toNat < 2 ^ (8 * s.byteWidth.toNat)) (hr : r.toNat < 2 ^ 31) {run : RunState}
    (hrun : run = if r = 0 then .needsHeader else .inRle) :
    State.Inv { s with rleValue := v, rleRemaining := r, runState := run } := by
  subst hrun
  obtain ⟨hcfg, -⟩ := hi.noEncoding3
  obtain ⟨-, hgroups⟩ := hi.counts
  obtain ⟨-, hlanes⟩ := hi.values hc
  exact { hi with
    unconfigured := by simp [hc]
    inRle := by simp
    inBitpacked := by simp [ite_eq_iff]
    needsHeader := fun _ => hp
    noOpenGroup := fun _ => hp
    noEncoding3 := ⟨hcfg, by simp [ite_eq_iff]⟩
    counts := ⟨hr, hgroups⟩
    values := fun _ => ⟨hv, hlanes⟩ }

/-- A bit-packed run at lane `p` with `g` groups left, and ended when both are 0 (10_state R31, items 5 and 6). -/
theorem State.Inv.withBitpackedRun {s : State} (hi : s.Inv) (hc : s.cfgState = .configured) {lanes : Vector Word 8}
    (hl : ∀ k, (lanes.get k).toNat < 2 ^ s.bitWidth.toNat) {g : Word} (hg : g.toNat < 2 ^ 31) {p : BitVec 3}
    {run : RunState} (hrun : run = if p = 0 ∧ g = 0 then .needsHeader else .inBitpacked) :
    State.Inv { s with bpGroup := lanes, bpGroupsRemaining := g, bpGroupPos := p, runState := run } := by
  subst hrun
  obtain ⟨hcfg, -⟩ := hi.noEncoding3
  obtain ⟨hvalues, -⟩ := hi.counts
  obtain ⟨hvalue, -⟩ := hi.values hc
  exact { hi with
    unconfigured := by simp [hc]
    inRle := by simp [ite_eq_iff]
    inBitpacked := by simp; tauto
    needsHeader := by simp; tauto
    noOpenGroup := by simp [ite_eq_iff]
    noEncoding3 := ⟨hcfg, by simp [ite_eq_iff]⟩
    counts := ⟨hvalues, hg⟩
    values := fun _ => ⟨hvalue, fun k => hl _⟩ }

/-- The lanes of a configured block lie in W bits (10_state R29, 43_bitpacked_group R164). -/
theorem State.Inv.bpGroup_lt {s : State} (hi : s.Inv) (hc : s.cfgState = .configured) (k : Fin 8) :
    (s.bpGroup.get k).toNat < 2 ^ s.bitWidth.toNat :=
  let ⟨_, hlanes⟩ := hi.values hc
  hlanes (BitVec.ofFin k)

theorem unpack_get_toNat_lt (w : Nat) (bs : List Byte) (k : Fin 8) : ((unpack w bs).get k).toNat < 2 ^ w := by
  rw [unpack_get]
  exact unpackLane_toNat_lt w bs k

/-- The value read after a header has BW bytes (44_rle_value R182). -/
theorem State.rleValue_lt (s : State) (n : Nat) :
    (rleValueOf (s.bytesAfterHeader n s.byteWidth.toNat)).toNat < 2 ^ (8 * s.byteWidth.toNat) := by
  simpa using rleValueOf_toNat_lt (s.bytesAfterHeader n s.byteWidth.toNat)

/-- A header's count, and what is left of it, fits 31 bits (10_state R28, R29). -/
theorem ofNat_count_lt (h : Word) {d : Nat} : (BitVec.ofNat 32 (h.toNat / 2 - d)).toNat < 2 ^ 31 := by
  have := h.isLt
  rw [BitVec.toNat_ofNat]
  omega

/-- Counting down stays below what was there. -/
theorem toNat_sub_one_lt {r : Word} (hr : r.toNat < 2 ^ 31) (h0 : r ≠ 0) : (r - 1).toNat < 2 ^ 31 := by
  bv_omega

/-! ## What a command leaves -/

/-- Every outcome of a decoding NEXT keeps the invariant (41_next R127, 42_run_header R147, R148). -/
theorem NextOutcome.inv {s t : State} (hi : s.Inv) (hc : s.cfgState = .configured) (ho : NextOutcome s t) : t.Inv := by
  obtain ⟨hvalues, hgroups⟩ := hi.counts
  obtain ⟨hvalue, -⟩ := hi.values hc
  cases ho with
  | headerTruncated n | headerMalformed n => exact (hi.noteReads _ _).raise (.inr hc)
  | headerEmpty h n _ e | rleShort h n _ e => exact (hi.afterHeader hc e).raise (.inr hc)
  | bitpackedShort h n _ e hz =>
    exact ((hi.afterHeader hc e).withBitpackedRun hc (hi.bpGroup_lt hc) (ofNat_count_lt h (d := 0))
      (if_neg fun ⟨_, h0⟩ => ofNat_count_ne_zero hz h0).symm).raise (.inr hc)
  | groupShort => exact hi.raise (.inr hc)
  | rleStart h n hr _ hz _ hf =>
    have hend : BitVec.ofNat 32 (h.toNat / 2 - 1) = 0 ↔ h.toNat / 2 = 1 := by
      rw [← ofNat_count_sub_one hz, ← ofNat_count_eq_one]
      bv_omega
    have hpos : (BitVec.ofNat 32 (s.position.toNat + n + s.byteWidth.toNat)).toNat ≤ s.bufLen.toNat :=
      (Nat.mod_le _ _).trans hf
    exact (((hi.noteReads _ _).withPosition hc hpos).withRleRun hc (hi.no_group (.inl hr)) (s.rleValue_lt n)
      (ofNat_count_lt h) (by simp only [hend])).respond (by decide) _
  | rle hr h0 =>
    exact (hi.withRleRun hc (hi.no_group (.inr hr)) hvalue (toNat_sub_one_lt hvalues h0)
      (if_congr (by bv_omega) rfl rfl)).respond (by decide) _
  | lane hr hp =>
    exact (hi.withBitpackedRun hc (hi.bpGroup_lt hc) hgroups
      (if_congr (and_congr_left' (by bv_omega)) rfl rfl)).respond (by decide) _
  | bitpackedStart h n _ _ hz _ hf =>
    have hpos : (BitVec.ofNat 32 (s.position.toNat + n + s.bitWidth.toNat)).toNat ≤ s.bufLen.toNat :=
      (Nat.mod_le _ _).trans hf
    exact (((hi.noteReads _ _).withPosition hc hpos).withBitpackedRun hc (unpack_get_toNat_lt _ _)
      (ofNat_count_lt h) (by simp)).respond (by decide) _
  | group _ _ hg hf =>
    have hpos : (BitVec.ofNat 32 (s.position.toNat + s.bitWidth.toNat)).toNat ≤ s.bufLen.toNat :=
      (Nat.mod_le _ _).trans hf
    exact (((hi.noteReads _ _).withPosition hc hpos).withBitpackedRun hc (unpack_get_toNat_lt _ _)
      (toNat_sub_one_lt hgroups hg) (by simp)).respond (by decide) _

/-- A restarted block with legal widths and a window in the address space (40_config_init R100, R110). -/
theorem State.restart_inv {s : State} (hc : s.cfgState = .configured)
    (hw : 1 ≤ s.bitWidth.toNat ∧ s.bitWidth.toNat ≤ 32 ∧ s.byteWidth.toNat = (s.bitWidth.toNat + 7) / 8)
    (hwin : s.bufBase.toNat + s.bufLen.toNat ≤ 2 ^ 32) (hst : s.rspStatus ≠ 7) (hm : Memory.wf s.mem = true) :
    s.restart.Inv where
  positionInBuffer := Nat.zero_le _
  windowInSpace := hwin
  unconfigured := by simp [hc]
  configured _ := hw
  inRle := by simp
  inBitpacked := by simp
  needsHeader _ := rfl
  noOpenGroup _ := rfl
  noEncoding3 := ⟨by simp [hc], by simp⟩
  counts := ⟨Nat.two_pow_pos 31, Nat.two_pow_pos 31⟩
  latch := ⟨fun _ => rfl, fun _ => Nat.zero_le _, by simp [hc]⟩
  values _ := ⟨Nat.two_pow_pos _, fun k => by
    rw [show s.restart.lane k = 0 from s.resetBlock_lane k]
    exact Nat.two_pow_pos _⟩
  response := hst
  memory := hm

/-- The widths a legal CONFIG writes (40_config_init R100, R101). -/
theorem configWidths_legal {w : Word} (h1 : 1 ≤ w.toNat) (h2 : w.toNat ≤ 32) :
    1 ≤ (w.setWidth 6).toNat ∧ (w.setWidth 6).toNat ≤ 32 ∧
      (byteWidthOf w.toNat).toNat = ((w.setWidth 6).toNat + 7) / 8 := by
  have hbit : (w.setWidth 6).toNat = w.toNat := by rw [BitVec.toNat_setWidth]; omega
  rw [hbit, byteWidthOf_toNat h2, Nat.shiftRight_eq_div_pow]
  exact ⟨h1, h2, rfl⟩

/-- Every outcome of a command word keeps the invariant. -/
theorem CommandOutcome.inv {s t : State} {w : BitVec 66} (hi : s.Inv) (ho : CommandOutcome w s t) : t.Inv := by
  cases ho with
  | fatal | latched => exact hi.respond hi.errCode_ne_seven _
  | unconfigured | reserved | initRefused => exact hi.respond (by decide) _
  | init hc _ hw =>
    exact (State.restart_inv (s := { s with bufBase := cmdArg0 w, bufLen := cmdArg1 w }) hc (hi.configured hc) hw
      hi.response hi.memory).respond (by decide) _
  | configIllegal => exact hi.raise (.inl rfl)
  | config _ _ h1 h2 =>
    exact (State.restart_inv (s := { s with
      bitWidth := (cmdArg0 w).setWidth 6, byteWidth := byteWidthOf (cmdArg0 w).toNat, bufBase := 0, bufLen := 0,
      cfgState := .configured }) rfl (configWidths_legal h1 h2) (by simp) hi.response hi.memory).respond (by decide) _
  | next _ hR _ hn => exact hn.inv hi hR.1

/-! ## What a step leaves -/

/-- A step from a state of the invariant answers its due command with one of the outcomes, or is the host's turn. -/
theorem step_cases {s t : State} (hi : s.Inv) (hs : step s = .next t) :
    (∃ w, s.Due w ∧ CommandOutcome w s.answering t) ∨ (s.NotDue ∧ t = s.ticked.hostTurn) := by
  obtain ⟨w, hd⟩ | hn := s.due_or_notDue
  · obtain ⟨u, hu, ho⟩ := runCommand_outcome hi.answering w
    obtain rfl := Host.Outcome.next.inj (hu.symm.trans ((step_of_due hd).symm.trans hs))
    exact .inl ⟨w, hd, ho⟩
  · rw [step_of_notDue hn] at hs
    exact .inr ⟨hn, (Host.Outcome.next.inj hs).symm⟩

/-- Every move of the host keeps the invariant (20_memory R63). -/
theorem State.Inv.hostTurn {s : State} (hi : s.Inv) : s.hostTurn.Inv := by
  obtain h | ⟨m, rest, -, h⟩ | ⟨w, l, rest, -, -, h⟩ | ⟨sel, rest, -, h⟩ | ⟨a, b, rest, -, h⟩ | ⟨rest, -, h⟩ :=
    s.hostTurn_cases <;> rw [h]
  · exact hi
  · exact { hi with }
  · exact { hi with }
  · exact { hi with }
  · exact { hi with memory := Memory.write_wf a.isLt hi.memory }
  · exact (State.resetBlock_registersAtReset _).inv (by simp) hi.memory

/-- Settles O49: the outcomes of the due command keep the invariant, and so does every move of the host. -/
theorem stepKeepsInv : Obligations.StepKeepsInv := by
  unfold Obligations.StepKeepsInv
  intro s t hi hs
  obtain ⟨w, -, ho⟩ | ⟨-, rfl⟩ := step_cases hi hs
  · exact ho.inv hi.answering
  · exact hi.ticked.hostTurn

end Sys2Proof.Machine
end

section
/-! SUPPORT. What a step answers and where it leaves `position` (spec/60_exceptions.md R200, R201, spec/41_next.md R132,
spec/10_state.md R26). -/

namespace Sys2Proof.Machine

/-! ## Running a due command -/

/-- Settles O44: a word that decodes runs its instruction where the command is answered. -/
theorem stepRunsDecodedCommand : Obligations.StepRunsDecodedCommand := by
  unfold Obligations.StepRunsDecodedCommand
  intro s w i hd hi
  rw [step_of_due hd, runCommand, hi]
  rfl

/-- NEXT needs a width first (40_config_init R104). -/
theorem exec_next_of_unconfigured {s : State} (hc : s.cfgState = .unconfigured) :
    exec .next s = .next s.respondIllegal := by
  rw [exec, execNext, State.prologue_of_unconfigured hc, State.nextBody, if_pos hc]

/-- Settles O15: the unconfigured branch of NEXT and INIT, and the legal one of CONFIG. -/
theorem unconfiguredAcceptsOnlyConfig : Obligations.UnconfiguredAcceptsOnlyConfig := by
  unfold Obligations.UnconfiguredAcceptsOnlyConfig
  exact fun s hc => ⟨exec_next_of_unconfigured hc, exec_init_of_unconfigured hc,
    fun w h1 h2 => ⟨_, exec_config_of_legal (.inl hc) h1 h2, rfl, rfl⟩⟩

/-! ## The status of each command -/

/-- A decoding NEXT answers OK or a data error (60_exceptions R201 to R204). -/
theorem NextOutcome.rspStatus_le_three {s t : State} (ho : NextOutcome s t) : t.rspStatus.toNat ≤ 3 := by
  cases ho <;> simp

@[simp] theorem State.respondIllegal_rspStatus (s : State) : s.respondIllegal.rspStatus = 6 := rfl

/-- Which command answers which code, outcome by outcome, where no error was latched before (60_exceptions R201). -/
theorem CommandOutcome.status_sources {s t : State} {w : BitVec 66} (hfatal : s.cfgState ≠ .fatal)
    (herr : s.errCode = 0) (ho : CommandOutcome w s t) :
    (t.rspStatus = 1 ∨ t.rspStatus = 2 ∨ t.rspStatus = 3 → cmdOp w = 0) ∧
      (t.rspStatus = 4 ↔ cmdOp w = 2 ∧ ¬ (1 ≤ (cmdArg0 w).toNat ∧ (cmdArg0 w).toNat ≤ 32)) ∧
      t.rspStatus ≠ 5 ∧
      (t.rspStatus = 6 ↔ cmdOp w = 3 ∨ (s.cfgState = .unconfigured ∧ (cmdOp w = 0 ∨ cmdOp w = 1)) ∨
        (cmdOp w = 1 ∧ 2 ^ 32 < (cmdArg0 w).toNat + (cmdArg1 w).toNat)) ∧
      t.rspStatus ≠ 7 := by
  cases ho with
  | fatal hc => exact absurd hc hfatal
  | latched _ _ he => exact absurd herr he
  | unconfigured hc hop =>
    have hops := cmdOp_cases w
    simp [hc]
    tauto
  | reserved hc hop => simp [hop]
  | initRefused hc hop hw => simpa [hop] using .inr hw
  | init hc hop hw => simpa [hc, hop] using hw
  | configIllegal hc hop hw => simp [hop, hw]
  | config hc hop h1 h2 => simp [hop, h1, h2]
  | next _ hR hop hn =>
    obtain ⟨hc, -⟩ := hR
    have hle := hn.rspStatus_le_three
    simp [hop, hc]
    bv_omega

/-- Settles O21: the outcomes of a command by their status; NEXT alone reads, so it alone meets a data error. -/
theorem statusCodeSources : Obligations.StatusCodeSources := by
  unfold Obligations.StatusCodeSources
  intro s t w hi hfatal herr hd hs
  obtain ⟨u, hu, ho⟩ := runCommand_outcome hi.answering w
  obtain rfl : u = t := Host.Outcome.next.inj (hu.symm.trans ((step_of_due hd).symm.trans hs))
  exact ho.status_sources (s := s.answering) hfatal herr

/-! ## The response of each command -/

/-- The state shows a response, with value 0 if it is an error (30_encoding R72, 60_exceptions R200). -/
def State.Answered (t : State) : Prop := t.rspValid = true ∧ (t.rspStatus ≠ 0 → t.rspValue = 0)

theorem State.respond_answered {st : BitVec 3} {v : Word} (h : st = 0 ∨ v = 0) (s : State) :
    (s.respond st v).Answered := ⟨rfl, h.resolve_left⟩

theorem State.raise_answered (k : ErrKind) (s : State) : (s.raise k).Answered := s.respond_answered (.inr rfl)

/-- The prologue answers itself, or leaves the answer to the command's own body (60_exceptions R206, R207). -/
theorem State.prologue_cases (body : State → State) (s : State) :
    s.prologue body = s.raise .internalFault ∨ s.prologue body = s.respond s.errCode 0 ∨ s.prologue body = body s := by
  cases hc : s.cfgState with
  | encoding3 => exact .inl (State.prologue_of_encoding3 hc body)
  | fatal => exact .inr (.inl (State.prologue_of_fatal hc body))
  | unconfigured => exact .inr (.inr (State.prologue_of_unconfigured hc body))
  | configured => exact .inr (.inr (State.prologue_of_configured hc body))

theorem State.prologue_answered {body : State → State} {s : State} (h : (body s).Answered) :
    (s.prologue body).Answered := by
  obtain e | e | e := s.prologue_cases body <;> rw [e]
  · exact s.raise_answered _
  · exact s.respond_answered (.inr rfl)
  · exact h

/-- Only NEXT's body gives a value: where the body gives none, neither does the command. -/
theorem State.prologue_rspValue {body : State → State} {s : State} (h : (body s).rspValue = 0) :
    (s.prologue body).rspValue = 0 := by
  obtain e | e | e := s.prologue_cases body <;> rw [e]
  · rfl
  · rfl
  · exact h

theorem State.serve_answered (s : State) : s.serve.Answered := by
  by_cases live : s.runState = .inRle ∧ s.rleRemaining ≠ 0 ∨
      s.runState = .inBitpacked ∧ (s.bpGroupsRemaining ≠ 0 ∨ s.bpGroupPos ≠ 0)
  · obtain ⟨-, er⟩ | ⟨-, -, er⟩ | ⟨-, -, -, -, er⟩ | ⟨-, -, -, -, er⟩ := State.serve_cases live <;> rw [er]
    · exact State.respond_answered (.inl rfl) _
    · exact State.respond_answered (.inl rfl) _
    · exact State.respond_answered (.inl rfl) _
    · exact s.raise_answered _
  · rw [State.serve_of_broken live]
    exact s.raise_answered _

theorem Attempt.finish_answered {α : Type} {go : α → State → State} (hgo : ∀ a u, (go a u).Answered) (r : Attempt α) :
    (r.finish go).Answered := by
  cases r with
  | ok a u => exact hgo a u
  | raised k u => exact u.raise_answered k

theorem State.nextBody_answered (s : State) : s.nextBody.Answered := by
  unfold State.nextBody
  split_ifs
  · exact s.respond_answered (.inr rfl)
  · exact s.respond_answered (.inr rfl)
  · exact Attempt.finish_answered (fun _ u => u.serve_answered) _
  · exact s.serve_answered

theorem State.initBody_answer (base len : Word) (s : State) :
    (s.initBody base len).Answered ∧ (s.initBody base len).rspValue = 0 := by
  unfold State.initBody
  split_ifs <;> exact ⟨State.respond_answered (.inr rfl) _, rfl⟩

theorem State.configBody_answer (w : Word) (s : State) :
    (s.configBody w).Answered ∧ (s.configBody w).rspValue = 0 := by
  unfold State.configBody
  split_ifs
  · exact ⟨State.respond_answered (.inr rfl) _, rfl⟩
  · exact ⟨s.raise_answered _, rfl⟩

/-- Every command word is answered, from any state (30_encoding R71), and only NEXT gives a value. -/
theorem runCommand_answered (w : BitVec 66) (s : State) :
    ∃ t, runCommand w s = .next t ∧ t.Answered ∧ (cmdOp w ≠ 0 → t.rspValue = 0) := by
  obtain hop | hop | hop | hop := cmdOp_cases w
  · exact ⟨_, runCommand_next hop s, State.prologue_answered s.nextBody_answered, absurd hop⟩
  · obtain ⟨ha, hv⟩ := s.initBody_answer (cmdArg0 w) (cmdArg1 w)
    exact ⟨_, runCommand_init hop s, State.prologue_answered ha, fun _ => State.prologue_rspValue hv⟩
  · obtain ⟨ha, hv⟩ := s.configBody_answer (cmdArg0 w)
    exact ⟨_, runCommand_config hop s, State.prologue_answered ha, fun _ => State.prologue_rspValue hv⟩
  · exact ⟨_, runCommand_reserved hop s, State.prologue_answered (s.respond_answered (.inr rfl)),
      fun _ => State.prologue_rspValue rfl⟩

/-- The step of a due command answers it, and the block is ready again (30_encoding R71). -/
theorem step_answered {s : State} {w : BitVec 66} (hd : s.Due w) :
    ∃ t, step s = .next t ∧ t.pending = none ∧ t.Answered ∧ (cmdOp w ≠ 0 → t.rspValue = 0) := by
  obtain ⟨t, ht, hans, hval⟩ := runCommand_answered w s.answering
  have hs : step s = .next t := (step_of_due hd).trans ht
  obtain ⟨-, -, -, -, hpending⟩ := step_environment_of_due hd hs
  exact ⟨t, hs, hpending, hans, hval⟩

/-- Settles O22: the prologue and each body give a response, and only NEXT's has a value. -/
theorem errorResponseHasNoValue : Obligations.ErrorResponseHasNoValue := by
  unfold Obligations.ErrorResponseHasNoValue
  intro s w hd
  obtain ⟨t, hs, hpending, ⟨hvalid, herror⟩, hval⟩ := step_answered hd
  exact ⟨t, hs, hvalid, by rw [State.cmdReady, hpending, Option.isNone_none], herror, hval⟩

/-! ## The bytes one NEXT consumes -/

/-- A NEXT that answers OK at a header consumes the header and then one value or one group (41_next R132). -/
theorem NextOutcome.header_consumes {s t : State} (ho : NextOutcome s t) (hok : t.rspStatus = 0)
    (hr : s.runState = .needsHeader) :
    ∃ h n, decodeVarint s.headerBytes = .value h n ∧ 1 ≤ n ∧ n ≤ 5 ∧
      t.position.toNat = s.position.toNat + n + (if h.toNat % 2 = 1 then s.bitWidth.toNat else s.byteWidth.toNat) := by
  cases ho with
  | rleStart h n _ e _ ht hf | bitpackedStart h n _ e _ ht hf =>
    obtain ⟨h1, h5, -⟩ := State.header_fits e
    refine ⟨h, n, e, h1, h5, ?_⟩
    rw [Nat.add_assoc] at hf
    simp [ht, Nat.add_assoc, -BitVec.toNat_ofNat, position_toNat hf]
  | headerTruncated | headerMalformed | headerEmpty | rleShort | bitpackedShort => simp at hok
  | rle hr' | lane hr' | group hr' | groupShort hr' => simp [hr'] at hr

/-- Inside a run only a bit-packed one at lane 0 consumes anything: the W bytes of a group (41_next R132). -/
theorem NextOutcome.run_consumes {s t : State} (ho : NextOutcome s t) (hok : t.rspStatus = 0) :
    (s.runState = .inRle → t.position = s.position) ∧
      (s.runState = .inBitpacked →
        t.position.toNat = s.position.toNat + if s.bpGroupPos = 0 then s.bitWidth.toNat else 0) := by
  cases ho with
  | rle hr => simp [hr]
  | lane hr hp => simpa [hr] using fun h0 => absurd h0 hp
  | group hr hp hg hf => simpa [hr, hp, -BitVec.toNat_ofNat] using position_toNat hf
  | headerTruncated | headerMalformed | headerEmpty | rleShort | bitpackedShort | groupShort => simp at hok
  | rleStart _ _ hr | bitpackedStart _ _ hr => simp [hr]

/-- Settles O30: what a NEXT that answers OK consumes, at a header and inside a run. -/
theorem nextConsumesBytes : Obligations.NextConsumesBytes := by
  unfold Obligations.NextConsumesBytes
  intro s t hi hR hs hok
  obtain ⟨u, hu, ho⟩ := exec_next_outcome hR hi
  obtain rfl : u = t := Host.Outcome.next.inj (hu.symm.trans hs)
  exact ⟨ho.header_consumes hok, ho.run_consumes hok⟩

/-! ## Where `position` can go -/

/-- NEXT never moves `position` back (10_state R26). -/
theorem NextOutcome.position_le {s t : State} (ho : NextOutcome s t) : s.position.toNat ≤ t.position.toNat := by
  cases ho with
  | headerTruncated | headerMalformed | rle | lane | groupShort => exact le_rfl
  | headerEmpty h n _ e | rleShort h n _ e | bitpackedShort h n _ e =>
    exact (Nat.le_add_right _ _).trans (State.afterHeader_position_toNat e).ge
  | rleStart h n _ _ _ _ hf | bitpackedStart h n _ _ _ _ hf =>
    rw [Nat.add_assoc] at hf
    simp only [State.respond_position, Nat.add_assoc, position_toNat hf]
    exact Nat.le_add_right _ _
  | group _ _ _ hf => exact (Nat.le_add_right _ _).trans (position_toNat hf).ge

/-- What a command does to `position`: only NEXT moves it on, and only INIT and CONFIG put it back to 0
(10_state R26). -/
theorem CommandOutcome.position {s t : State} {w : BitVec 66} (ho : CommandOutcome w s t) :
    t.position = s.position ∨ (cmdOp w = 0 ∧ s.position.toNat ≤ t.position.toNat) ∨
      (t.position = 0 ∧ (cmdOp w = 1 ∨ cmdOp w = 2)) := by
  cases ho with
  | next _ _ hop hn => exact .inr (.inl ⟨hop, hn.position_le⟩)
  | init _ hop => exact .inr (.inr ⟨rfl, .inl hop⟩)
  | config _ hop => exact .inr (.inr ⟨rfl, .inr hop⟩)
  | _ => exact .inl rfl

/-- Settles O50: the invariant bounds `position`; a command moves it as its outcome says, and of the host's moves only
reset does. -/
theorem positionMoves : Obligations.PositionMoves := by
  unfold Obligations.PositionMoves
  refine fun s t hi hs => ⟨(stepKeepsInv s t hi hs).positionInBuffer, fun hne => ?_⟩
  obtain ⟨w, hd, ho⟩ | ⟨hn, -⟩ := step_cases hi hs
  · obtain h | ⟨hop, hle⟩ | ⟨h0, hop⟩ := ho.position
    · exact absurd h hne
    · exact .inl ⟨w, hd, hop, Nat.lt_of_le_of_ne hle fun h => hne (BitVec.eq_of_toNat_eq h.symm)⟩
    · exact .inr ⟨h0, .inl ⟨w, hd, hop⟩⟩
  · obtain ⟨-, -, -, -, -, hpos, -⟩ | ⟨-, rest, hh⟩ := step_sameRegisters_of_notDue hn hs
    · exact absurd hpos hne
    · obtain rfl := Host.Outcome.next.inj ((step_reset hn hh).symm.trans hs)
      exact .inr ⟨rfl, .inr ⟨hn, rest, hh⟩⟩

end Sys2Proof.Machine
end

section
/-! SUPPORT. The host's moves as exact steps (spec/20_memory.md part 5, spec/30_encoding.md R71): a command taken, held
back or lost, a byte written, the breach of the window, and the wait of a command. -/

namespace Sys2Proof.Machine

/-! ## One move of the host -/

theorem State.notDue_of_none {s : State} (h : s.pending = none) : s.NotDue := by
  simp [State.NotDue, h]

theorem State.notDue_of_wait {s : State} {p : Pending} (h : s.pending = some p) (hw : p.wait ≠ 0) : s.NotDue := by
  simpa [State.NotDue, h] using hw

theorem State.ticked_of_none {s : State} (h : s.pending = none) : s.ticked = { s with rspValid := false } := by
  rw [State.ticked, h, Option.map_none, ← h]

theorem State.ticked_of_some {s : State} {p : Pending} (h : s.pending = some p) :
    s.ticked = { s with pending := some ⟨p.word, p.wait - 1⟩, rspValid := false } := by
  rw [State.ticked, h, Option.map_some]

/-- The exact step of a host write in which no command is answered (20_memory R60). -/
theorem step_writeByte {s : State} {a : Word} {b : Byte} {rest : List HostMove} (hn : s.NotDue)
    (hh : s.host = .writeByte a b :: rest) : step s = .next (State.hostWrite a b { s.ticked with host := rest }) := by
  have hturn : s.ticked.hostTurn = State.hostWrite a b { s.ticked with host := rest } := by
    simp only [State.hostTurn, State.ticked_host, hh]
  rw [step_of_notDue hn, hturn]

/-- A ready block takes the command presented, whether the host waited for it or not (30_encoding R71). -/
theorem step_takes_command {s : State} {w : BitVec 66} {l : Nat} {rest : List HostMove} (hp : s.pending = none)
    (hh : s.host = .command w l :: rest ∨ s.host = .commandNow w l :: rest) :
    step s = .next (State.issue w l { s with rspValid := false, host := rest }) := by
  rw [step_of_notDue (State.notDue_of_none hp), State.ticked_of_none hp]
  obtain hh | hh := hh <;> simp [State.hostTurn, State.cmdReady, hp, hh]

/-- While a command waits, an obedient host keeps its next one (30_encoding R71). -/
theorem step_holds_command {s : State} {p : Pending} {w : BitVec 66} {l : Nat} {rest : List HostMove}
    (hp : s.pending = some p) (hw : p.wait ≠ 0) (hh : s.host = .command w l :: rest) :
    step s = .next { s with pending := some ⟨p.word, p.wait - 1⟩, rspValid := false } := by
  rw [step_of_notDue (State.notDue_of_wait hp hw), State.ticked_of_some hp]
  simp [State.hostTurn, State.cmdReady, hh]

/-- A command presented while another waits is lost (30_encoding R71). -/
theorem step_loses_command {s : State} {p : Pending} {w : BitVec 66} {l : Nat} {rest : List HostMove}
    (hp : s.pending = some p) (hw : p.wait ≠ 0) (hh : s.host = .commandNow w l :: rest) :
    step s = .next { s with pending := some ⟨p.word, p.wait - 1⟩, rspValid := false, host := rest } := by
  rw [step_of_notDue (State.notDue_of_wait hp hw), State.ticked_of_some hp]
  simp [State.hostTurn, State.cmdReady, hh]

/-- Settles O46: the exact steps in which a command is taken, kept by the host, and lost. -/
theorem commandHandshake : Obligations.CommandHandshake := by
  unfold Obligations.CommandHandshake
  refine ⟨fun s w l rest hready hh => ?taken,
    fun s p w l rest hp hw => ⟨step_holds_command hp hw, step_loses_command hp hw⟩⟩
  case taken =>
    have hp : s.pending = none := Option.isNone_iff_eq_none.mp hready
    exact ⟨_, step_takes_command hp hh, rfl, rfl, rfl, by simp [State.SameRegisters]⟩

/-! ## Memory -/

/-- No move of the host but a write changes memory (20_memory R63). -/
theorem State.hostTurn_mem {s : State} (h : ∀ a b rest, s.host ≠ .writeByte a b :: rest) :
    s.hostTurn.mem = s.mem := by
  obtain e | ⟨_, _, -, e⟩ | ⟨_, _, _, -, -, e⟩ | ⟨_, _, -, e⟩ | ⟨a, b, rest, hh, -⟩ | ⟨_, -, e⟩ := s.hostTurn_cases
  · rw [e]
  · rw [e]
  · rw [e]; rfl
  · rw [e]
  · exact absurd hh (h a b rest)
  · rw [e]; rfl

/-- Settles O42: a write reads back at its address alone; a command touches no memory, nor does any other move. -/
theorem onlyHostWritesMemory : Obligations.OnlyHostWritesMemory := by
  unfold Obligations.OnlyHostWritesMemory
  refine ⟨fun s a b rest hm hn hh => ⟨_, step_writeByte hn hh, fun x => ?lands⟩, fun s t hs hno => ?kept⟩
  case lands =>
    simp only [State.hostWrite_mem, State.ticked_mem, Memory.read_write hm, BitVec.toNat_inj]
  case kept =>
    obtain ⟨w, hd⟩ | hn := s.due_or_notDue
    · obtain ⟨hmem, -⟩ := step_environment_of_due hd hs
      exact hmem
    · rw [step_of_notDue hn] at hs
      obtain rfl := Host.Outcome.next.inj hs
      exact State.hostTurn_mem (s := s.ticked) (hno.resolve_left (not_not.mpr hn))

/-! ## The breach of the window -/

theorem inWindow_iff (base len a : Word) :
    inWindow base len a = true ↔ base.toNat ≤ a.toNat ∧ a.toNat < base.toNat + len.toNat := by
  simp [inWindow]

/-- With no command pending the window in use is guarded (20_memory R60). -/
theorem State.guards_of_none {s : State} (h : s.pending = none) (a : Word) :
    s.guards a = inWindow s.bufBase s.bufLen a := by
  rw [State.guards, h]

/-- While a command waits, the window it is about to bind is guarded, none under CONFIG, and the one in use under any
other command (20_memory R60, log 8). -/
theorem State.guards_of_some {s : State} {p : Pending} (h : s.pending = some p) (a : Word) :
    s.guards a = true ↔
      if cmdOp p.word = 2 then False
      else if cmdOp p.word = 1 ∧ s.cfgState = .configured ∧
          (cmdArg0 p.word).toNat + (cmdArg1 p.word).toNat ≤ 2 ^ 32 then
        (cmdArg0 p.word).toNat ≤ a.toNat ∧ a.toNat < (cmdArg0 p.word).toNat + (cmdArg1 p.word).toNat
      else s.bufBase.toNat ≤ a.toNat ∧ a.toNat < s.bufBase.toNat + s.bufLen.toNat := by
  rw [State.guards, h]
  obtain hop | hop | hop | hop := cmdOp_cases p.word
  · simp [decodeCmd_next hop, hop, inWindow_iff]
  · rw [if_neg (by simp [hop])]
    simp only [decodeCmd_init hop, hop, legalWindow, decide_eq_true_eq, true_and]
    split_ifs <;> exact inWindow_iff ..
  · simp [decodeCmd_config hop, hop]
  · simp [decodeCmd_reserved hop, hop, inWindow_iff]

/-- The command's word, which stays as its answer comes nearer, decides which window is guarded. -/
theorem State.guards_ticked (s : State) (a : Word) : s.ticked.guards a = s.guards a := by
  cases h : s.pending with
  | none => rw [State.guards_of_none h, State.guards_of_none (by rw [State.ticked_of_none h, h])]; rfl
  | some p => rw [Bool.eq_iff_iff, State.guards_of_some h, State.guards_of_some (by rw [State.ticked_of_some h])]; rfl

/-- What a host write does to the registers and to the breach, while no command is answered (20_memory R60). -/
theorem step_writeByte_breach {s : State} {a : Word} {b : Byte} {rest : List HostMove} (hn : s.NotDue)
    (hh : s.host = .writeByte a b :: rest) :
    ∃ t, step s = .next t ∧ s.SameRegisters t ∧
      (t.windowWritten = true ↔ s.windowWritten = true ∨ s.guards a = true) := by
  refine ⟨_, step_writeByte hn hh, s.sameRegisters_ticked, ?_⟩
  rw [State.hostWrite_windowWritten, Bool.or_eq_true, ← s.guards_ticked a]
  rfl

theorem startsInterval_iff (w : BitVec 66) : startsInterval w = true ↔ cmdOp w = 1 ∨ cmdOp w = 2 := by
  simp [startsInterval]

/-- A breach lasts through every move of the host but reset and the issue of INIT or CONFIG. -/
theorem State.hostTurn_breach_lasts {s : State} (hb : s.windowWritten = true) :
    s.hostTurn.windowWritten = true ∨ (∃ rest, s.host = .reset :: rest) ∨
      (s.pending = none ∧ ∃ w l rest, (s.host = .command w l :: rest ∨ s.host = .commandNow w l :: rest) ∧
        (cmdOp w = 1 ∨ cmdOp w = 2)) := by
  obtain e | ⟨_, _, -, e⟩ | ⟨w, l, rest, hready, hh, e⟩ | ⟨_, _, -, e⟩ | ⟨_, _, _, -, e⟩ | ⟨rest, hh, -⟩ :=
    s.hostTurn_cases
  · exact .inl (by rw [e, hb])
  · exact .inl (by rw [e, hb])
  · by_cases hop : cmdOp w = 1 ∨ cmdOp w = 2
    · exact .inr (.inr ⟨Option.isNone_iff_eq_none.mp hready, w, l, rest, hh, hop⟩)
    · exact .inl (by rw [e, State.issue_windowWritten, if_neg (mt (startsInterval_iff w).mp hop), hb])
  · exact .inl (by rw [e, hb])
  · exact .inl (by rw [e, State.hostWrite_windowWritten, hb, Bool.true_or])
  · exact .inr (.inl ⟨rest, hh⟩)

/-- Only a write of the host starts a breach. -/
theorem State.hostTurn_breach_starts {s : State} (hb : s.windowWritten = false)
    (ht : s.hostTurn.windowWritten = true) : ∃ a b rest, s.host = .writeByte a b :: rest := by
  obtain e | ⟨_, _, -, e⟩ | ⟨_, _, _, -, -, e⟩ | ⟨_, _, -, e⟩ | ⟨a, b, rest, hh, -⟩ | ⟨_, -, e⟩ := s.hostTurn_cases
  · simp [e, hb] at ht
  · simp [e, hb] at ht
  · simp [e, hb] at ht
  · simp [e, hb] at ht
  · exact ⟨a, b, rest, hh⟩
  · simp [e] at ht

/-- Settles O43: the step of a write by the window it guards, and a breach by the moves that end and start it. -/
theorem hostWriteBreaksWindow : Obligations.HostWriteBreaksWindow := by
  unfold Obligations.HostWriteBreaksWindow
  refine ⟨fun s a b rest hp hh => ?idle, fun s off j => ⟨fun hb => if_pos hb, fun hb => ?memory⟩,
    fun s p a b rest hp hw hh => ?waiting, fun s w l rest hp hh => ⟨_, step_takes_command hp hh, rfl, ?issue⟩, ?reset,
    fun s t hs hb => ?lasts, fun s t hs hb ht => ?starts⟩
  case idle =>
    simpa only [State.guards_of_none hp, inWindow_iff] using step_writeByte_breach (State.notDue_of_none hp) hh
  case memory => rw [State.busByte, hb, if_neg Bool.false_ne_true]
  case waiting =>
    simpa only [State.guards_of_some hp] using step_writeByte_breach (State.notDue_of_wait hp hw) hh
  case issue => simp only [State.issue_windowWritten, startsInterval_iff]
  case reset =>
    rintro s ⟨hn, rest, hh⟩
    exact ⟨_, step_reset hn hh, rfl⟩
  case lasts =>
    obtain ⟨w, hd⟩ | hn := s.due_or_notDue
    · obtain ⟨-, hbreach, -⟩ := step_environment_of_due hd hs
      exact .inl (hbreach.trans hb)
    · rw [step_of_notDue hn] at hs
      obtain rfl := Host.Outcome.next.inj hs
      obtain h | hreset | ⟨hp, hissue⟩ := State.hostTurn_breach_lasts (s := s.ticked) hb
      · exact .inl h
      · exact .inr (.inl ⟨hn, hreset⟩)
      · exact .inr (.inr ⟨Option.map_eq_none_iff.mp hp, hissue⟩)
  case starts =>
    obtain ⟨w, hd⟩ | hn := s.due_or_notDue
    · obtain ⟨-, hbreach, -⟩ := step_environment_of_due hd hs
      exact absurd (hbreach.symm.trans ht) (by simp [hb])
    · rw [step_of_notDue hn] at hs
      obtain rfl := Host.Outcome.next.inj hs
      exact ⟨hn, State.hostTurn_breach_starts (s := s.ticked) hb ht⟩

/-! ## The wait of a command -/

/-- A waiting command is kept by every move of the host but reset (30_encoding R71). -/
theorem State.hostTurn_keeps_pending {s : State} {p : Pending} (hp : s.pending = some p)
    (hno : ∀ m ∈ s.host, m ≠ .reset) : s.hostTurn.pending = some p ∧ ∀ m ∈ s.hostTurn.host, m ≠ .reset := by
  have htail {m : HostMove} {rest : List HostMove} (hh : s.host = m :: rest) : ∀ m ∈ rest, m ≠ .reset :=
    fun m hm => hno m (by rw [hh]; exact List.mem_cons_of_mem _ hm)
  obtain e | ⟨m, rest, hh, e⟩ | ⟨_, _, _, hready, -⟩ | ⟨_, rest, hh, e⟩ | ⟨_, _, rest, hh, e⟩ | ⟨_, hh, -⟩ :=
    s.hostTurn_cases
  · exact e.symm ▸ ⟨hp, hno⟩
  · exact e ▸ ⟨hp, htail hh⟩
  · simp [State.cmdReady, hp] at hready
  · exact e ▸ ⟨hp, htail hh⟩
  · exact e ▸ ⟨hp, htail hh⟩
  · exact absurd rfl (hno .reset (by simp [hh]))

theorem core_run_succ {s u : State} (h : step s = .next u) (k : Nat) : core.run (k + 1) s = core.run k u := by
  simp only [Host.Core.run, show core.step s = .next u from h]

/-- A command that waits `n` steps is answered in the step after them (70_reset_and_hazards R247). -/
theorem run_answers_pending (n : Nat) {s : State} {w : BitVec 66} (hp : s.pending = some ⟨w, n⟩)
    (hno : ∀ m ∈ s.host, m ≠ .reset) :
    ∃ t : State, core.run (n + 1) s = .next t ∧ t.rspValid = true ∧ t.pending = none := by
  induction n generalizing s with
  | zero =>
    obtain ⟨t, hs, hpending, ⟨hvalid, -⟩, -⟩ := step_answered hp
    exact ⟨t, core_run_succ hs 0, hvalid, hpending⟩
  | succ n ih =>
    have hs := step_of_notDue (State.notDue_of_wait hp n.succ_ne_zero)
    obtain ⟨hp', hno'⟩ := State.hostTurn_keeps_pending (s := s.ticked) (by rw [State.ticked_of_some hp]) hno
    obtain ⟨t, hrun, ht⟩ := ih hp' hno'
    exact ⟨t, (core_run_succ hs _).trans hrun, ht⟩

/-- Settles O47: by induction on the wait, each step of which leaves the command pending. -/
theorem takenCommandIsAnswered : Obligations.TakenCommandIsAnswered := by
  unfold Obligations.TakenCommandIsAnswered
  exact fun s p hp hno => run_answers_pending p.wait hp hno

end Sys2Proof.Machine
end

section
/-! SUPPORT. NEXT through a header and through a run (spec/41_next.md R121, R127, R129, spec/42_run_header.md R140 to
R149, spec/43_bitpacked_group.md R167). -/

namespace Sys2Proof.Machine

/-! ## NEXT at a header that fits -/

/-- A count other than 0 is no 0 in its 32-bit register either (42_run_header R146). -/
theorem zeroExtend_ne_zero {c : BitVec 31} (hc : c ≠ 0) : c.zeroExtend 32 ≠ 0 := by
  bv_omega

theorem zeroExtend_sub_one {c : BitVec 31} (hc : c ≠ 0) : c.zeroExtend 32 - 1 = BitVec.ofNat 32 (c.toNat - 1) := by
  bv_omega

theorem zeroExtend_eq_one (c : BitVec 31) : c.zeroExtend 32 = 1 ↔ c = 1 := by
  bv_omega

/-- Settles O26: the header is consumed, RLE_RUN reads the value, and the run so entered serves it. -/
theorem nextStartsRleRun : Obligations.NextStartsRleRun := by
  unfold Obligations.NextStartsRleRun
  intro s h n c hR hr e hd hc hf
  have hpos := State.afterHeader_position_toNat e
  rw [exec_next_of_header hR hr, State.readRunHeader_of_rle e hd, State.enterRleRun_of_fits hc (by rw [hpos]; exact hf),
    Attempt.finish, State.serve_of_rle rfl (zeroExtend_ne_zero hc), hpos, ← State.noteReads_noteReads,
    ← State.readBytes_noteReads s.position.toNat]
  simp only [zeroExtend_sub_one hc, zeroExtend_eq_one]
  rfl

/-- Settles O27: the header is consumed and the run entered, and the run reads its first group and serves lane 0. -/
theorem nextStartsBitpackedRun : Obligations.NextStartsBitpackedRun := by
  unfold Obligations.NextStartsBitpackedRun
  intro s h n c hR hr e hd hc hf
  have hpos := State.afterHeader_position_toNat e
  rw [exec_next_of_header hR hr, State.readRunHeader_of_bitpacked e hd, State.enterBitpackedRun_of_count hc,
    Attempt.finish, State.serve_of_new_group rfl rfl (zeroExtend_ne_zero hc) (by rw [hpos]; exact hf), hpos,
    ← State.noteReads_noteReads, ← State.readBytes_noteReads s.position.toNat]
  simp only [zeroExtend_sub_one hc]
  rfl

/-! ## NEXT as the header's instruction and then NEXT -/

/-- On its own, a header's instruction is what ReadRunHeader does with it (42_run_header R140, log 9). -/
theorem exec_decodeHeader {s : State} {h : Word} {n : Nat} (e : decodeVarint s.headerBytes = .value h n) :
    exec (decodeHeader h) (s.afterHeader n) = .next (s.readRunHeader.finish fun _ u => u) := by
  obtain ⟨-, hd⟩ | ⟨-, hd⟩ := decodeHeader_cases h
  · rw [State.readRunHeader_of_rle e hd, hd, exec, execRleRun]
  · rw [State.readRunHeader_of_bitpacked e hd, hd, exec, execBitpackedRun]

/-- A header that enters a run leaves the block decoding inside it (42_run_header R144, R145). -/
theorem State.readRunHeader_enters {s u : State} {a : Unit} (hR : s.Ready) (e : s.readRunHeader = .ok a u) :
    u.Ready ∧ u.runState ≠ .needsHeader := by
  obtain ⟨_, -, er⟩ | ⟨_, -, er⟩ | ⟨_, _, -, -, er⟩ | ⟨_, _, -, -, -, -, er⟩ | ⟨_, _, -, -, -, -, er⟩ |
    ⟨_, _, -, -, -, er⟩ := s.readRunHeader_cases <;> rw [er] at e <;> cases e
  · exact ⟨hR, by simp⟩
  · exact ⟨hR, by simp⟩

/-- Settles O45: a header that raises ends NEXT as it ends its instruction, and one that enters a run leaves NEXT the
case on `run_state`. -/
theorem nextRunsDecodedHeader : Obligations.NextRunsDecodedHeader := by
  unfold Obligations.NextRunsDecodedHeader
  intro s h n hR hr e
  refine ⟨_, exec_decodeHeader e, ?_⟩
  rw [exec_next_of_header hR hr]
  cases er : s.readRunHeader with
  | raised k u => exact ⟨fun _ => rfl, fun h0 => absurd h0 k.code_ne_zero⟩
  | ok a u =>
    obtain ⟨hRu, hru⟩ := State.readRunHeader_enters hR er
    exact ⟨fun hne => absurd hRu.2 hne, fun _ => (exec_next_of_run hRu hru).symm⟩

/-! ## NEXTs in a row -/

theorem State.afterNexts_succ {s t : State} (h : exec .next s = .next t) (k : Nat) :
    s.afterNexts (k + 1) = t.afterNexts k := by
  rw [State.afterNexts, h]

/-- The last of `k + 1` NEXTs comes after the first `k`. -/
theorem State.afterNexts_succ_last {s t : State} (k : Nat) (h : exec .next (s.afterNexts k) = .next t) :
    s.afterNexts (k + 1) = t := by
  induction k generalizing s with
  | zero => exact State.afterNexts_succ h 0
  | succ k ih =>
    have hfirst : exec .next s = .next (s.prologue State.nextBody) := rfl
    rw [State.afterNexts_succ hfirst] at h ⊢
    exact ih h

/-! ## Runs served to their end -/

/-- The state one NEXT of an RLE run leaves (41_next R122, R123). -/
def State.rleServed (s : State) : State :=
  State.respond 0 s.rleValue
    { s with
      rleRemaining := s.rleRemaining - 1
      runState := if s.rleRemaining = 1 then .needsHeader else .inRle }

theorem exec_next_rleServed {s : State} (hR : s.Ready) (hr : s.runState = .inRle) (h0 : s.rleRemaining ≠ 0) :
    exec .next s = .next s.rleServed := by
  rw [exec_next_of_run hR (by simp [hr]), State.serve_of_rle hr h0, State.rleServed]

/-- `t` stands `k` values further on in the RLE run of `s`, with more to come (10_state R28). -/
structure State.RleRunAfter (s t : State) (k : Nat) : Prop where
  ready : t.Ready
  inRle : t.runState = .inRle
  remaining : t.rleRemaining.toNat + k = s.rleRemaining.toNat
  value : t.rleValue = s.rleValue
  position : t.position = s.position

/-- Each NEXT short of the last counts one value down and stays in the run (41_next R122, R123). -/
theorem State.rleRunAfter_afterNexts {s : State} (hR : s.Ready) (hr : s.runState = .inRle) (k : Nat)
    (hk : k < s.rleRemaining.toNat) : s.RleRunAfter (s.afterNexts k) k := by
  induction k with
  | zero => exact ⟨hR, hr, rfl, rfl, rfl⟩
  | succ k ih =>
    obtain ⟨hR', hr', hleft, hval, hpos⟩ := ih (by omega)
    rw [State.afterNexts_succ_last k (exec_next_rleServed hR' hr' (by bv_omega))]
    have hdown : (s.afterNexts k).rleServed.rleRemaining.toNat + 1 = (s.afterNexts k).rleRemaining.toNat :=
      show ((s.afterNexts k).rleRemaining - 1).toNat + 1 = _ by bv_omega
    exact ⟨hR', if_neg (by bv_omega), by omega, hval, hpos⟩

/-- Settles O31: each NEXT up to the last finds the run with values left, and the last finds one. -/
theorem rleRunYieldsItsCount : Obligations.RleRunYieldsItsCount := by
  unfold Obligations.RleRunYieldsItsCount
  intro s hR hr h0
  refine ⟨fun k hk => ?yields, ?ends⟩
  case yields =>
    obtain ⟨hR', hr', hleft, hval, hpos⟩ := State.rleRunAfter_afterNexts hR hr k hk
    exact ⟨_, exec_next_rleServed hR' hr' (by bv_omega), rfl, hval, hpos⟩
  case ends =>
    obtain ⟨k, hk⟩ := Nat.exists_eq_add_one_of_ne_zero (n := s.rleRemaining.toNat) (by bv_omega)
    obtain ⟨hR', hr', hleft, -, -⟩ := State.rleRunAfter_afterNexts hR hr k (by omega)
    rw [hk, State.afterNexts_succ_last k (exec_next_rleServed hR' hr' (by bv_omega))]
    exact if_pos (by bv_omega)

/-- The state one NEXT at a lane other than 0 leaves (41_next R124, R126). -/
def State.laneServed (s : State) : State :=
  State.respond 0 (s.lane s.bpGroupPos)
    { s with
      bpGroupPos := s.bpGroupPos + 1
      runState := if s.bpGroupPos = 7 ∧ s.bpGroupsRemaining = 0 then .needsHeader else .inBitpacked }

theorem exec_next_laneServed {s : State} (hR : s.Ready) (hr : s.runState = .inBitpacked) (hp : s.bpGroupPos ≠ 0) :
    exec .next s = .next s.laneServed := by
  rw [exec_next_of_run hR (by simp [hr]), State.serve_of_lane hr hp, State.laneServed]

/-- Settles O32: by induction on the NEXTs already made, each of which moves one lane on inside the group. -/
theorem groupLanesServedInOrder : Obligations.GroupLanesServedInOrder := by
  unfold Obligations.GroupLanesServedInOrder
  intro s k hR hr hp hk
  induction k generalizing s with
  | zero => exact ⟨_, exec_next_laneServed hR hr hp, rfl, congrArg s.lane (BitVec.add_zero _).symm, rfl, rfl⟩
  | succ k ih =>
    have h7 : s.bpGroupPos ≠ 7 := by bv_omega
    have hr' : s.laneServed.runState = .inBitpacked := if_neg fun h => h7 h.1
    have hp' : (s.bpGroupPos + 1).toNat = s.bpGroupPos.toNat + 1 := by bv_omega
    have hlane : s.bpGroupPos + BitVec.ofNat 3 (k + 1) = s.bpGroupPos + 1 + BitVec.ofNat 3 k := by bv_omega
    rw [State.afterNexts_succ (exec_next_laneServed hR hr hp), hlane]
    exact ih s.laneServed hR hr' (show s.bpGroupPos + 1 ≠ 0 by bv_omega)
      (show (s.bpGroupPos + 1).toNat + k < 8 by omega)

end Sys2Proof.Machine
end

section
/-! SUPPORT. Groups packed and unpacked (spec/30_encoding.md R82, spec/43_bitpacked_group.md R163). -/

namespace Sys2Proof.Machine

/-! ## Bytes -/

theorem encodeBytes_length (n x : Nat) : (encodeBytes n x).length = n := by
  induction n generalizing x with
  | zero => rfl
  | succ n ih => rw [encodeBytes, List.length_cons, ih]

/-- Reading little-endian bytes back gives what they had room for (20_memory R54). -/
theorem leNat_encodeBytes (n x : Nat) : leNat (encodeBytes n x) = x % 256 ^ n := by
  induction n generalizing x with
  | zero => rw [encodeBytes, leNat, Nat.pow_zero, Nat.mod_one]
  | succ n ih =>
    rw [encodeBytes, leNat, ih, Nat.pow_succ', Nat.mod_mul, BitVec.toNat_ofNat]

/-! ## Lanes -/

/-- Lanes of `w` bits pack into as many bits as they have together (30_encoding R82). -/
theorem packLanes_lt {w : Nat} {lanes : List Word} (h : ∀ v ∈ lanes, v.toNat < 2 ^ w) :
    packLanes w lanes < 2 ^ (w * lanes.length) := by
  induction lanes with
  | nil => exact Nat.one_pos
  | cons v vs ih =>
    obtain ⟨hv, hvs⟩ := List.forall_mem_cons.mp h
    rw [packLanes, List.length_cons, Nat.mul_succ, Nat.pow_add, Nat.mul_comm _ (2 ^ w)]
    calc v.toNat + 2 ^ w * packLanes w vs < 2 ^ w * (packLanes w vs + 1) := by rw [Nat.mul_succ]; omega
      _ ≤ 2 ^ w * 2 ^ (w * vs.length) := Nat.mul_le_mul_left _ (ih hvs)

/-- Bits `kw` to `kw + w - 1` of packed lanes are lane `k` (30_encoding R82). -/
theorem packLanes_lane {w : Nat} {lanes : List Word} (h : ∀ v ∈ lanes, v.toNat < 2 ^ w) {k : Nat}
    (hk : k < lanes.length) : (packLanes w lanes >>> (k * w)) % 2 ^ w = lanes[k].toNat := by
  induction lanes generalizing k with
  | nil => exact absurd hk (Nat.not_lt_zero k)
  | cons v vs ih =>
    obtain ⟨hv, hvs⟩ := List.forall_mem_cons.mp h
    cases k with
    | zero => rw [Nat.zero_mul, Nat.shiftRight_zero, packLanes, Nat.add_mul_mod_self_left, Nat.mod_eq_of_lt hv]; rfl
    | succ k =>
      have hshift : (v.toNat + 2 ^ w * packLanes w vs) >>> w = packLanes w vs := by
        rw [Nat.shiftRight_eq_div_pow, Nat.add_mul_div_left _ _ (Nat.two_pow_pos w), Nat.div_eq_of_lt hv, Nat.zero_add]
      rw [packLanes, Nat.succ_mul, Nat.add_comm (k * w), Nat.shiftRight_add, hshift]
      exact ih hvs (Nat.lt_of_succ_lt_succ hk)

/-- The W bytes of a group hold all 8 lanes of W bits (30_encoding R82). -/
theorem leNat_encodeGroup {w : Nat} {lanes : Vector Word 8} (h : ∀ v ∈ lanes.toList, v.toNat < 2 ^ w) :
    leNat (encodeGroup w lanes) = packLanes w lanes.toList := by
  have hlt := packLanes_lt h
  rw [Vector.length_toList, Nat.mul_comm, Nat.pow_mul] at hlt
  rw [encodeGroup, leNat_encodeBytes, Nat.mod_eq_of_lt hlt]

/-- Settles O39: the group's bytes give back the packed number, and each lane its bits of it. -/
theorem unpackOfPackIsLanes : Obligations.UnpackOfPackIsLanes := by
  unfold Obligations.UnpackOfPackIsLanes
  intro w lanes _ _ hlanes
  have hmem : ∀ v ∈ lanes.toList, v.toNat < 2 ^ w := fun v hv => by
    obtain ⟨k, hk, rfl⟩ := List.mem_iff_getElem.mp hv
    rw [Vector.length_toList] at hk
    rw [Vector.getElem_toList]
    exact hlanes ⟨k, hk⟩
  refine ⟨encodeBytes_length w _, Vector.ext fun k hk => ?_⟩
  have hlane : (unpackLane w (encodeGroup w lanes) k) = lanes[k] := by
    rw [unpackLane, leNat_encodeGroup hmem, packLanes_lane hmem (by simpa using hk), BitVec.ofNat_toNat,
      BitVec.setWidth_eq, Vector.getElem_toList]
  exact (unpack_get w _ ⟨k, hk⟩).trans hlane

end Sys2Proof.Machine
end

section
/-! SUPPORT. NEXT over another memory with the same bytes in the window (spec/20_memory.md R52): each part of NEXT
commutes with the exchange. -/

namespace Sys2Proof.Machine

/-! ## The exchange -/

/-- The same block over another memory. -/
def State.withMem (m : Memory) (s : State) : State := { s with mem := m }

/-- The same outcome of a part of NEXT over another memory. -/
def Attempt.withMem {α : Type} (m : Memory) : Attempt α → Attempt α
  | .ok a s => .ok a (s.withMem m)
  | .raised k s => .raised k (s.withMem m)

/-- The two memories hold the same bytes at every offset of the buffer. -/
def State.AgreesInWindow (s : State) (m : Memory) : Prop :=
  ∀ off < s.bufLen.toNat, Memory.read m (s.bufAddr off).toNat = Memory.read s.mem (s.bufAddr off).toNat

/-! ## The reads -/

/-- Reads inside the buffer give the same bytes. -/
theorem State.AgreesInWindow.readBytes {s : State} {m : Memory} (h : s.AgreesInWindow m) {off n : Nat}
    (hin : ∀ j < n, off + j < s.bufLen.toNat) : (s.withMem m).readBytes off n = s.readBytes off n := by
  refine List.map_congr_left fun j hj => ?_
  have hbyte := h (off + j) (hin j (List.mem_range.mp hj))
  unfold State.busByte
  exact if_congr Iff.rfl rfl hbyte

theorem State.AgreesInWindow.headerBytes {s : State} {m : Memory} (h : s.AgreesInWindow m) :
    (s.withMem m).headerBytes = s.headerBytes :=
  h.readBytes fun j (hj : j < min 5 (s.bufLen.toNat - s.position.toNat)) =>
    show s.position.toNat + j < s.bufLen.toNat by omega

theorem State.AgreesInWindow.enterRleRun {s : State} {m : Memory} (h : s.AgreesInWindow m) (c : BitVec 31) :
    (s.withMem m).enterRleRun c = (s.enterRleRun c).withMem m := by
  by_cases hc : c = 0
  · subst hc
    rfl
  · by_cases hf : s.position.toNat + s.byteWidth.toNat ≤ s.bufLen.toNat
    · have hbytes := h.readBytes (off := (s.withMem m).position.toNat) (n := (s.withMem m).byteWidth.toNat)
        fun j hj => (Nat.add_lt_add_left hj _).trans_le hf
      rw [State.enterRleRun_of_fits hc hf, State.enterRleRun_of_fits (s := s.withMem m) hc hf, hbytes]
      rfl
    · have hf := Nat.not_le.mp hf
      rw [State.enterRleRun_of_short hc hf, State.enterRleRun_of_short (s := s.withMem m) hc hf]
      rfl

theorem State.enterBitpackedRun_withMem (s : State) (m : Memory) (c : BitVec 31) :
    (s.withMem m).enterBitpackedRun c = (s.enterBitpackedRun c).withMem m := by
  unfold State.enterBitpackedRun
  split <;> rfl

theorem State.AgreesInWindow.readRunHeader {s : State} {m : Memory} (h : s.AgreesInWindow m) :
    (s.withMem m).readRunHeader = s.readRunHeader.withMem m := by
  have hbytes := h.headerBytes
  cases e : decodeVarint s.headerBytes with
  | truncated n =>
    rw [State.readRunHeader_of_truncated e, State.readRunHeader_of_truncated (hbytes ▸ e)]
    rfl
  | malformed n =>
    rw [State.readRunHeader_of_malformed e, State.readRunHeader_of_malformed (hbytes ▸ e)]
    rfl
  | value hw n =>
    obtain ⟨-, hd⟩ | ⟨-, hd⟩ := decodeHeader_cases hw
    · rw [State.readRunHeader_of_rle e hd, State.readRunHeader_of_rle (hbytes ▸ e) hd]
      exact State.AgreesInWindow.enterRleRun (s := s.afterHeader n) h _
    · rw [State.readRunHeader_of_bitpacked e hd, State.readRunHeader_of_bitpacked (hbytes ▸ e) hd]
      exact (s.afterHeader n).enterBitpackedRun_withMem m _

/-- Reading a header moves neither the window nor memory. -/
theorem State.AgreesInWindow.of_readRunHeader {s u : State} {m : Memory} {a : Unit} (h : s.AgreesInWindow m)
    (e : s.readRunHeader = .ok a u) : u.AgreesInWindow m := by
  obtain ⟨_, -, er⟩ | ⟨_, -, er⟩ | ⟨_, _, -, -, er⟩ | ⟨_, _, -, -, -, -, er⟩ | ⟨_, _, -, -, -, -, er⟩ |
    ⟨_, _, -, -, -, er⟩ := s.readRunHeader_cases <;> rw [er] at e <;> cases e
  · exact h
  · exact h

/-! ## NEXT -/

/-- At lane 0 NEXT reads the group inside the buffer, or finds it cut short by the length alone. -/
theorem State.AgreesInWindow.serve_at_new_group {s : State} {m : Memory} (h : s.AgreesInWindow m)
    (hr : s.runState = .inBitpacked) (hp : s.bpGroupPos = 0) (hg : s.bpGroupsRemaining ≠ 0) :
    (s.withMem m).serve = s.serve.withMem m := by
  by_cases hf : s.position.toNat + s.bitWidth.toNat ≤ s.bufLen.toNat
  · have hbytes := h.readBytes (off := (s.withMem m).position.toNat) (n := (s.withMem m).bitWidth.toNat)
      fun j hj => (Nat.add_lt_add_left hj _).trans_le hf
    rw [State.serve_of_new_group hr hp hg hf, State.serve_of_new_group (s := s.withMem m) hr hp hg hf, hbytes]
    rfl
  · have hf := Nat.not_le.mp hf
    rw [State.serve_of_short_group hr hp hg hf, State.serve_of_short_group (s := s.withMem m) hr hp hg hf]
    rfl

theorem State.AgreesInWindow.serve {s : State} {m : Memory} (h : s.AgreesInWindow m) :
    (s.withMem m).serve = s.serve.withMem m := by
  by_cases live : s.runState = .inRle ∧ s.rleRemaining ≠ 0 ∨
      s.runState = .inBitpacked ∧ (s.bpGroupsRemaining ≠ 0 ∨ s.bpGroupPos ≠ 0)
  · obtain ⟨hr, h0⟩ | ⟨hr, h0⟩ := live
    · rw [State.serve_of_rle hr h0, State.serve_of_rle (s := s.withMem m) hr h0]
      rfl
    · by_cases hp : s.bpGroupPos = 0
      · exact h.serve_at_new_group hr hp (h0.resolve_right (not_not.mpr hp))
      · rw [State.serve_of_lane hr hp, State.serve_of_lane (s := s.withMem m) hr hp]
        rfl
  · rw [State.serve_of_broken live, State.serve_of_broken (s := s.withMem m) live]
    rfl

theorem Attempt.finish_withMem {α : Type} {m : Memory} {go : α → State → State} {r : Attempt α}
    (hgo : ∀ a u, r = .ok a u → go a (u.withMem m) = (go a u).withMem m) :
    (r.withMem m).finish go = (r.finish go).withMem m := by
  cases r with
  | ok a u => exact hgo a u rfl
  | raised k u => rfl

theorem State.AgreesInWindow.nextBody {s : State} {m : Memory} (h : s.AgreesInWindow m) :
    (s.withMem m).nextBody = s.nextBody.withMem m := by
  simp only [State.nextBody, apply_ite (State.withMem m)]
  refine ite_congr rfl (fun _ => rfl) fun _ => ite_congr rfl (fun _ => rfl) fun _ =>
    ite_congr rfl (fun _ => ?_) fun _ => h.serve
  rw [h.readRunHeader, Attempt.finish_withMem fun _ _ e => (h.of_readRunHeader e).serve]

theorem State.prologue_withMem {body : State → State} {s : State} {m : Memory}
    (h : body (s.withMem m) = (body s).withMem m) : (s.withMem m).prologue body = (s.prologue body).withMem m := by
  cases hc : s.cfgState with
  | encoding3 => rw [State.prologue_of_encoding3 hc, State.prologue_of_encoding3 (s := s.withMem m) hc]; rfl
  | fatal => rw [State.prologue_of_fatal hc, State.prologue_of_fatal (s := s.withMem m) hc]; rfl
  | unconfigured => rwa [State.prologue_of_unconfigured hc, State.prologue_of_unconfigured (s := s.withMem m) hc]
  | configured => rwa [State.prologue_of_configured hc, State.prologue_of_configured (s := s.withMem m) hc]

/-- Settles O41: every address of the window is an offset's, and NEXT commutes with the exchange. -/
theorem nextDependsOnWindowOnly : Obligations.NextDependsOnWindowOnly := by
  unfold Obligations.NextDependsOnWindowOnly
  intro s m hi hm
  have hagree : s.AgreesInWindow m := fun off hoff => hm _ <| by
    rw [inWindow_iff, State.bufAddr_toNat_of_window hi.windowInSpace hoff]
    omega
  exact ⟨_, rfl, congrArg Host.Outcome.next (State.prologue_withMem hagree.nextBody)⟩

end Sys2Proof.Machine
end
